-- ==== Sys2Proof/Word.lean ====
section
/-! DEFINITION. The word types of the block's ports: bytes, the 80-bit frame, the 112-bit transaction word. -/

namespace Sys2Proof

/-- A byte of the input window, bit 7 the most significant (20_memory.md R50, R51). -/
abbrev Byte := BitVec 8

/-- `IN_FRAME`: bytes 0..9 of row 0, byte 0 in bits 79:72 (10_state.md R24). -/
abbrev Frame := BitVec 80

/-- The transaction word `W = IN_ROWS : IN_BITS : IN_FRAME` (30_encoding.md R70). -/
abbrev TxWord := BitVec 112

end Sys2Proof
end

