-- ==== Sys2Proof/Config.lean ====
section
/-! DEFINITION. What the spec leaves to an implementation: the two parameters of a model of the block
(00_scope.md R5), and the value the spec leaves free. -/

namespace Sys2Proof

/-- The type of the CRC-8 primitive: (bytes, length, polynomial, initial value) to a byte
(41_crc8_validator.md R140). -/
abbrev Crc8Fn := List Byte → Nat → Byte → Byte → Byte

/-- The arguments a model of the block takes (00_scope.md R5). -/
structure Params where
  /-- `CRC8_FN`, any pure function of its type (41_crc8_validator.md R140). -/
  crc8Fn : Crc8Fn
  /-- `LATENCY` of the n-th START taken in the two-step form: any finite number of cycles, 0 allowed, and it
  may differ from one frame to the next (70_reset_and_hazards.md R248). -/
  latency : Nat → Nat

/-- FREE VALUE (notes/assumptions/2): `LATENCY`, which the spec leaves open (R248). It has no body, so nothing
proved of the machine rests on a number of cycles. -/
opaque Config.latency : Nat → Nat

end Sys2Proof
end

