-- ==== Sys2Proof/Machine/Constants.lean ====
section
/-! DEFINITION. The hardwired protocol constants (10_state.md R40), in the order of the rule's table. -/

namespace Sys2Proof.Machine

/-- `C_ROWS`: required row count. -/
def cRows : BitVec 16 := 1

/-- `C_FRAME_BITS`: required row length in bits. -/
def cFrameBits : BitVec 16 := 80

/-- `C_PREAMBLE`: required value of byte 0. -/
def cPreamble : Byte := 0xFF

/-- `C_CRC_POLY`: CRC-8 polynomial. -/
def cCrcPoly : Byte := 0x31

/-- `C_CRC_INIT`: CRC-8 initial value. -/
def cCrcInit : Byte := 0xFF

/-- `C_CRC_LEN`: number of bytes the CRC covers. -/
def cCrcLen : Nat := 9

/-- `C_CRC_POS`: index of the byte that holds the transmitted CRC. -/
def cCrcPos : Fin 10 := 9

/-- `C_TEMP_MASK`: mask on the 16-bit temperature word. -/
def cTempMask : BitVec 16 := 0x0FFF

/-- `C_TEMP_OFFSET`: temperature offset in raw units. -/
def cTempOffset : Int := 400

/-- `C_TEMP_DIV`: raw units per degree Celsius. -/
def cTempDiv : Nat := 10

/-- `C_WIND_NUM` of the wind raw-to-m/s scale. -/
def cWindNum : Nat := 34

/-- `C_WIND_DEN` of the wind raw-to-m/s scale. -/
def cWindDen : Nat := 100

/-- `C_KMH` = 36/10, m/s to km/h: the numerator. -/
def cKmhNum : Nat := 36

/-- `C_KMH` = 36/10, m/s to km/h: the denominator. -/
def cKmhDen : Nat := 10

/-- `C_RAIN` = 3/10 millimetres per rain count: the numerator. -/
def cRainNum : Nat := 3

/-- `C_RAIN` = 3/10 millimetres per rain count: the denominator. -/
def cRainDen : Nat := 10

/-- `C_BATT_LOW`: the battery nibble that means LOW. -/
def cBattLow : BitVec 4 := 1

/-- Thousandths of a km/h per raw wind unit (43_measurement_scaler.md R182): 34/100 times 36/10 times 1000. -/
def cWindStep : Nat := 1224

/-- Tenths of a millimetre per rain count (43_measurement_scaler.md R184): 3/10 times 10. -/
def cRainStep : Nat := 3

end Sys2Proof.Machine
end

