-- ==== Sys2Proof/Syntax.lean ====
section
/-! DEFINITION. The classes of a transaction word, one constructor for each row of spec/opcode_table.json. -/

namespace Sys2Proof

/-- The fields of a frame whose preamble is right (30_encoding.md R71), under the table's letters. -/
structure FrameFields where
  /-- `u`, bits 71:64: byte 1, in no record field, covered by the CRC (R77). -/
  u : BitVec 8
  /-- `s`, bits 63:60: high nibble of byte 2, masked off, covered by the CRC (R77). -/
  s : BitVec 4
  /-- `t`, bits 59:48: temperature, raw (R160). -/
  t : BitVec 12
  /-- `h`, bits 47:40: humidity, raw (R161). -/
  h : BitVec 8
  /-- `a`, bits 39:32: wind average, raw (R162). -/
  a : BitVec 8
  /-- `g`, bits 31:24: wind gust, raw (R163). -/
  g : BitVec 8
  /-- `b`, bits 23:20: battery nibble (R165). -/
  b : BitVec 4
  /-- `r`, bits 19:8: rain counter, raw (R164). -/
  r : BitVec 12
  /-- `c`, bits 7:0: the transmitted CRC (R143). -/
  c : BitVec 8
  deriving DecidableEq, Repr

/-- The five classes of a transaction word (30_encoding.md R75). A don't-care part of a class (R76) is kept as
a field, so that no bit of the word is lost; no meaning reads it. -/
inductive Instr where
  /-- `DECODE.REJ_ROWS`: `n` = `IN_ROWS`, other than 1; `IN_BITS` and `IN_FRAME` don't care. -/
  | rejRows (rows bits : BitVec 16) (frame : Frame)
  /-- `DECODE.REJ_LEN`: one row, `l` = `IN_BITS`, other than 80; `IN_FRAME` don't care. -/
  | rejLen (bits : BitVec 16) (frame : Frame)
  /-- `DECODE.REJ_PRE`: one row of 80 bits, `p` = byte 0, other than 0xFF; bits 71:0 don't care. -/
  | rejPre (byte0 : BitVec 8) (rest : BitVec 72)
  /-- `DECODE.REJ_CRC`: byte 0 is 0xFF and `c` is not the CRC of bytes 0..8. -/
  | rejCrc (f : FrameFields)
  /-- `DECODE.ACCEPT`: byte 0 is 0xFF and `c` is the CRC of bytes 0..8. -/
  | accept (f : FrameFields)
  deriving DecidableEq, Repr

end Sys2Proof
end

