-- ==== Sys2Proof/Machine/Operands.lean ====
section
/-! DEFINITION. The operands of a decode: the input window `F[0]..F[9]`, `MemRead`, the bit-slicer, and the frame a
set of fields makes. -/

namespace Sys2Proof.Machine

/-! ## The input window (20_memory.md) -/

/-- `F[i] = IN_FRAME[79 - 8*i : 72 - 8*i]` (20_memory.md R50). No address outside 0..9 exists. -/
def byteAt (frame : Frame) (i : Fin 10) : Byte :=
  frame.extractLsb' (72 - 8 * i.val) 8

/-- `F[0], ..., F[9]` in address order. -/
def windowBytes (frame : Frame) : List Byte :=
  (List.finRange 10).map (byteAt frame)

/-- The bytes `F[0]..F[8]`, which the CRC covers (41_crc8_validator.md R142). -/
def payload (frame : Frame) : List Byte :=
  (windowBytes frame).take cCrcLen

/-- A byte sequence read as one number, first byte most significant. -/
def bigEndian (bytes : List Byte) : Nat :=
  bytes.foldl (fun acc b => acc * 256 + b.toNat) 0

/-- `MemRead(a, n)`: the n bytes from address a, big-endian; defined only for `a + n <= 10` (20_memory.md R52). -/
def memRead (frame : Frame) (a n : Nat) (_inWindow : a + n ≤ 10) : BitVec (8 * n) :=
  BitVec.ofNat (8 * n) (bigEndian (((windowBytes frame).drop a).take n))

/-! ## The bit-slicer (42_bit_slicer.md) -/

/-- `SLICE_TEMP` (R160): `MemRead(2, 2) & 0x0FFF`, 12 bits. -/
def sliceTemp (frame : Frame) : BitVec 12 :=
  (memRead frame 2 2 (by decide) &&& cTempMask).setWidth 12

/-- `SLICE_HUM` (R161): `F[4]`. -/
def sliceHum (frame : Frame) : BitVec 8 := byteAt frame 4

/-- `SLICE_WAVG` (R162): `F[5]`. -/
def sliceWavg (frame : Frame) : BitVec 8 := byteAt frame 5

/-- `SLICE_WGUST` (R163): `F[6]`. -/
def sliceWgust (frame : Frame) : BitVec 8 := byteAt frame 6

/-- `SLICE_RAIN` (R164): `F[7][3:0] : F[8][7:0]`, 12 bits. -/
def sliceRain (frame : Frame) : BitVec 12 :=
  (byteAt frame 7).extractLsb' 0 4 ++ byteAt frame 8

/-- `SLICE_BATT` (R165): `F[7][7:4]`. -/
def sliceBatt (frame : Frame) : BitVec 4 :=
  (byteAt frame 7).extractLsb' 4 4

/-- The fields of a frame (30_encoding.md R71, R73), cut out by the slicer. -/
def fieldsOf (frame : Frame) : FrameFields where
  u := byteAt frame 1
  s := (byteAt frame 2).extractLsb' 4 4
  t := sliceTemp frame
  h := sliceHum frame
  a := sliceWavg frame
  g := sliceWgust frame
  b := sliceBatt frame
  r := sliceRain frame
  c := byteAt frame cCrcPos

/-- The frame that holds the given fields after the preamble: the pattern string of 30_encoding.md R72. -/
def frameOf (f : FrameFields) : Frame :=
  cPreamble ++ f.u ++ f.s ++ f.t ++ f.h ++ f.a ++ f.g ++ f.b ++ f.r ++ f.c

end Sys2Proof.Machine
end

