-- ==== Sys2Proof/Machine/Crc8.lean ====
section
/-! DEFINITION. The CRC-8 validator's primitive: the default `CRC8_FN` of 41_crc8_validator.md R141, its configuration
R142, and the parameters the machine is built with. -/

namespace Sys2Proof.Machine

/-- One shift of the remainder (R141): when bit 7 is 1 the polynomial is XORed in after the shift. -/
def crcShift (poly rem : Byte) : Byte :=
  if rem.msb then (rem <<< 1) ^^^ poly else rem <<< 1

/-- `n` shifts of the remainder. -/
def crcShifts (poly : Byte) : Nat → Byte → Byte
  | 0, rem => rem
  | n + 1, rem => crcShifts poly n (crcShift poly rem)

/-- One byte of the message (R141): XOR it into the remainder, then shift eight times. -/
def crcByte (poly rem b : Byte) : Byte :=
  crcShifts poly 8 (rem ^^^ b)

/-- The default `CRC8_FN` (R141): most significant bit first, no reflection, no final XOR.
PRESUMED by the spec from general knowledge (notes/assumptions/1). -/
def crc8 (bytes : List Byte) (n : Nat) (poly init : Byte) : Byte :=
  (bytes.take n).foldl (crcByte poly) init

/-- `crc_calc` (R142, R143): the primitive over `F[0]..F[8]` with the block's hardwired configuration. -/
def crcCalc (crc : Crc8Fn) (frame : Frame) : Byte :=
  crc (payload frame) cCrcLen cCrcPoly cCrcInit

/-- The parameters of the machine: the default `CRC8_FN`, "which the block implements" (R141), and a free
`LATENCY` (70_reset_and_hazards.md R248). -/
def machineParams : Params where
  crc8Fn := crc8
  latency := Config.latency

end Sys2Proof.Machine
end

