-- ==== Sys2Proof/WellFormed.lean ====
section
/-! DEFINITION. When an instruction is one a transaction word can be: the condition of its class
(30_encoding.md R75), over any CRC primitive and over the machine's own. -/

namespace Sys2Proof

/-- The class condition of each row of spec/opcode_table.json ("match_sense"), for a CRC primitive `crc`. -/
def Instr.wellFormedWith (crc : Crc8Fn) (i : Instr) : Bool :=
  match i with
  | .rejRows rows _ _ => rows != Machine.cRows
  | .rejLen bits _ => bits != Machine.cFrameBits
  | .rejPre byte0 _ => byte0 != Machine.cPreamble
  | .rejCrc f => f.c != Machine.crcCalc crc (Machine.frameOf f)
  | .accept f => f.c == Machine.crcCalc crc (Machine.frameOf f)

/-- Well-formed for the machine, whose primitive is the default `CRC8_FN`. -/
def Instr.wellFormed (i : Instr) : Bool :=
  i.wellFormedWith Machine.machineParams.crc8Fn

end Sys2Proof
end

