-- ==== Sys2Proof/Decode.lean ====
section
/-! DEFINITION. The transaction word and its class: the decoder, total on every word, and the encoder, both from the
tables of 30_encoding.md. -/

namespace Sys2Proof

/-! ## The transaction word (30_encoding.md R70) -/

/-- `W = IN_ROWS : IN_BITS : IN_FRAME`. -/
def txWord (rows bits : BitVec 16) (frame : Frame) : TxWord := rows ++ bits ++ frame

/-- `W[111:96]`, the row count. -/
def rowsField (w : TxWord) : BitVec 16 := w.extractLsb' 96 16

/-- `W[95:80]`, the row length in bits. -/
def bitsField (w : TxWord) : BitVec 16 := w.extractLsb' 80 16

/-- `W[79:0]`, the frame. -/
def frameField (w : TxWord) : Frame := w.extractLsb' 0 80

/-! ## The decoder -/

/-- The class of a transaction word (30_encoding.md R75): the first of the five conditions that holds, in the
order of the table. Total: no word is illegal (R70). -/
def classifyWith (crc : Crc8Fn) (w : TxWord) : Instr :=
  let frame := frameField w
  if rowsField w ≠ Machine.cRows then
    .rejRows (rowsField w) (bitsField w) frame
  else if bitsField w ≠ Machine.cFrameBits then
    .rejLen (bitsField w) frame
  else if Machine.byteAt frame 0 ≠ Machine.cPreamble then
    .rejPre (Machine.byteAt frame 0) (frame.extractLsb' 0 72)
  else if Machine.crcCalc crc frame ≠ Machine.byteAt frame Machine.cCrcPos then
    .rejCrc (Machine.fieldsOf frame)
  else
    .accept (Machine.fieldsOf frame)

/-- The decoder of the machine: the classes under its own `CRC8_FN`. -/
def classify (w : TxWord) : Instr := classifyWith Machine.machineParams.crc8Fn w

/-- Why a sequence of bytes gives no transaction word. -/
inductive DecodeError where
  /-- Fewer than the 14 bytes of a transaction word. Safe: no decode begins. -/
  | tooShort
  deriving DecidableEq, Repr

/-- The number of bytes of a transaction word. -/
def txWordBytes : Nat := 14

/-- The decoder on bytes: a transaction word is 14 bytes in the order of its 28 hex digits, the first the most
significant (R70); DESIGN CHOICE, since the block itself has ports and no byte stream (notes/assumptions/18).
Gives the instruction and the bytes after it. -/
def decodeBytes (bytes : List Byte) : Except DecodeError (Instr × List Byte) :=
  if bytes.length < txWordBytes then
    .error .tooShort
  else
    .ok (classify (BitVec.ofNat 112 (Machine.bigEndian (bytes.take txWordBytes))), bytes.drop txWordBytes)

/-- The 112-bit word whose low `nbits` bits are `w`, every bit above them 0. -/
def wordOfBits (nbits w : Nat) : TxWord := BitVec.ofNat 112 (w % 2 ^ nbits)

/-- What the decoder reads from an instruction whose bits are `w`, numbered as spec/opcode_table.json numbers
them: the table's word is `W` itself, bit 0 its least significant. More bits than `W` has are no instruction. -/
def decodeTableWord (nbits w : Nat) : Option Instr :=
  if nbits ≤ 112 then some (classify (wordOfBits nbits w)) else none

/-! ## The encoder -/

/-- The transaction word of an instruction, from the "encoding" of its row in spec/opcode_table.json. -/
def encode (i : Instr) : TxWord :=
  match i with
  | .rejRows rows bits frame => txWord rows bits frame
  | .rejLen bits frame => txWord Machine.cRows bits frame
  | .rejPre byte0 rest => txWord Machine.cRows Machine.cFrameBits (byte0 ++ rest)
  | .rejCrc f => txWord Machine.cRows Machine.cFrameBits (Machine.frameOf f)
  | .accept f => txWord Machine.cRows Machine.cFrameBits (Machine.frameOf f)

end Sys2Proof
end

