-- ==== Sys2Proof/Machine/Scaler.lean ====
section
/-! DEFINITION. The measurement scaler and the assembly of a record (43_measurement_scaler.md, 40_frame_decoder.md R107).
Each scaler computes on integers and narrows at the end (R186). -/

namespace Sys2Proof.Machine

/-- The measurement record: six fields, in the formats of the record registers (10_state.md R32 to R37). -/
structure Record where
  tempDc : BitVec 16
  hum : BitVec 8
  wavg : BitVec 19
  wgust : BitVec 19
  rainDmm : BitVec 14
  battLow : BitVec 1
  deriving DecidableEq, Repr

/-- `SCALE_TEMP` (R180): `temp_raw - 400`, two's complement. -/
def scaleTemp (raw : BitVec 12) : BitVec 16 :=
  BitVec.ofInt 16 ((raw.toNat : Int) - cTempOffset)

/-- `PASS_HUM` (R181): unchanged, neither clamped nor rejected. -/
def passHum (raw : BitVec 8) : BitVec 8 := raw

/-- `SCALE_WIND` (R182): `1224 * raw`. -/
def scaleWind (raw : BitVec 8) : BitVec 19 :=
  BitVec.ofNat 19 (cWindStep * raw.toNat)

/-- `SCALE_RAIN` (R184): `3 * raw`. -/
def scaleRain (raw : BitVec 12) : BitVec 14 :=
  BitVec.ofNat 14 (cRainStep * raw.toNat)

/-- `CLASS_BATT` (R185): 1 exactly when the nibble is 1. -/
def classBatt (nibble : BitVec 4) : BitVec 1 :=
  if nibble = cBattLow then 1 else 0

/-- `ASSEMBLE` (40_frame_decoder.md R107): the record of six raw fields. The gust takes the same function as the
average (R183). -/
def assemble (temp : BitVec 12) (hum wavg wgust : BitVec 8) (rain : BitVec 12) (batt : BitVec 4) : Record where
  tempDc := scaleTemp temp
  hum := passHum hum
  wavg := scaleWind wavg
  wgust := scaleWind wgust
  rainDmm := scaleRain rain
  battLow := classBatt batt

end Sys2Proof.Machine
end

