-- ==== Sys2Proof/Machine/State.lean ====
section
/-! DEFINITION. The state of one block instance and of the host that drives it, as plain data; its reset; the reasons a
step can stop. -/

namespace Sys2Proof.Machine

/-- `PHASE` (10_state.md R39). `left` is the model's own: how many steps the decode in progress still takes,
which stands for `LATENCY` (70_reset_and_hazards.md R248). -/
inductive Phase where
  | idle
  | busy (left : Nat)
  deriving DecidableEq, Repr

/-- The input ports, at the levels the host drives (10_state.md R22 to R26). Not state of the block (R20). -/
structure Pins where
  /-- `RST`, active high (R26). -/
  rst : Bool
  /-- `START`, active high (R25). -/
  start : Bool
  /-- `IN_ROWS` (R22). -/
  rows : BitVec 16
  /-- `IN_BITS` (R23). -/
  bits : BitVec 16
  /-- `IN_FRAME` (R24). -/
  frame : Frame
  deriving DecidableEq, Repr

/-- The output registers, each readable at any time (10_state.md R38). -/
inductive Register where
  | status | tempDc | hum | wavg | wgust | rainDmm | battLow
  deriving DecidableEq, Repr

/-- What a READ gives back to the host: the register and its value (30_encoding.md R80). -/
inductive Answer where
  | status (v : BitVec 8)
  | tempDc (v : BitVec 16)
  | hum (v : BitVec 8)
  | wavg (v : BitVec 19)
  | wgust (v : BitVec 19)
  | rainDmm (v : BitVec 14)
  | battLow (v : BitVec 1)
  deriving DecidableEq, Repr

/-- A move of the host. The first three are the transactions of 30_encoding.md R80; the others are single acts at
the ports, for the two-step form of 40_frame_decoder.md R100 and R101. Row counts and lengths are the true
counts: driving them saturates (10_state.md R22, R23). -/
inductive HostMove where
  /-- `RESET`: RST = 1, then RST = 0 (R80, 70_reset_and_hazards.md R240). -/
  | reset
  /-- `DECODE rows=, bits=, frame=`: drive the inputs, raise START with the block IDLE, wait for DONE (R80). -/
  | decode (rowCount rowLength : Nat) (frame : Frame)
  /-- `READ <register>` (R80, 10_state.md R38). -/
  | read (reg : Register)
  /-- Drive `IN_ROWS`, `IN_BITS` and `IN_FRAME`. -/
  | drive (rowCount rowLength : Nat) (frame : Frame)
  /-- Drive START to a level (10_state.md R25). -/
  | setStart (level : Bool)
  /-- Drive RST to a level (10_state.md R26). -/
  | setRst (level : Bool)
  /-- Let one step pass. -/
  | wait
  deriving DecidableEq, Repr

/-- The machine. `phase` to `battLow` are the architectural state of one block instance (10_state.md R20);
`pins` are the host's levels; `resetSeen`, `latencyIdx`, `script` and `answers` are the model's own. -/
structure State where
  /-- `PHASE` (R39). -/
  phase : Phase
  /-- `STATUS.DONE`, bit 0 (R28). -/
  done : Bool
  /-- `STATUS.VALID`, bit 1 (R29). -/
  valid : Bool
  /-- `STATUS.CODE`, bits 4:2 (R30). -/
  code : BitVec 3
  /-- `TEMP_DC`, two's complement, 0.1 degree C (R32). -/
  tempDc : BitVec 16
  /-- `HUM`, percent (R33). -/
  hum : BitVec 8
  /-- `WAVG`, 0.001 km/h (R34). -/
  wavg : BitVec 19
  /-- `WGUST`, 0.001 km/h (R35). -/
  wgust : BitVec 19
  /-- `RAIN_DMM`, 0.1 mm (R36). -/
  rainDmm : BitVec 14
  /-- `BATT_LOW`, 1 = LOW (R37). -/
  battLow : BitVec 1
  /-- The input ports. -/
  pins : Pins
  /-- Has RST been asserted since power-up? Before that the registers mean nothing
  (70_reset_and_hazards.md R243; notes/assumptions/8). -/
  resetSeen : Bool
  /-- Which free `LATENCY` the next START takes (notes/assumptions/2). -/
  latencyIdx : Nat
  /-- The host's coming moves, the next first (30_encoding.md R80; notes/assumptions/3). -/
  script : List HostMove
  /-- What the host's READs gave back, oldest first. -/
  answers : List Answer
  deriving DecidableEq, Repr

/-- The machine right after reset (70_reset_and_hazards.md R240): PHASE IDLE, STATUS 0x00, record registers 0.
DESIGN CHOICE: the pins are low and zero (notes/assumptions/6), the host has no move pending and has read
nothing (notes/assumptions/12), the first START takes the first free latency (notes/assumptions/2). -/
def State.reset : State where
  phase := .idle
  done := false
  valid := false
  code := 0
  tempDc := 0
  hum := 0
  wavg := 0
  wgust := 0
  rainDmm := 0
  battLow := 0
  pins := { rst := false, start := false, rows := 0, bits := 0, frame := 0 }
  resetSeen := true
  latencyIdx := 0
  script := []
  answers := []

/-- The faults of the machine. -/
inductive Fault where
  /-- Raised by a READ of STATUS that finds `CODE` 5, 6 or 7: reserved, never written; "a model that reads a CODE
  of 5..7 has reached a state no rule produces and treats it as a fault" (60_exceptions.md R215). Safe: no state
  that meets the invariant of Safety.lean raises it. -/
  | reservedCode
  deriving DecidableEq, Repr

/-- The refusals: moves the spec gives a model no step for. -/
inductive Refusal where
  /-- Raised by an arm of `exec` that has no meaning yet; none is left. Safe. -/
  | notModelled (mnemonic : String)
  /-- Raised by a START, or a DECODE, before the first reset, whatever PHASE holds: "a START before reset is refused"
  (70_reset_and_hazards.md R243). Safe. -/
  | startBeforeReset
  /-- Raised by a READ before the first reset: "a read of them before reset has no meaning"
  (70_reset_and_hazards.md R243). Safe. -/
  | readBeforeReset
  /-- Raised by a host move that changes an input while a decode is in progress: "a run that breaks this has no meaning
  and no step in a model" (92_eei_decisions.md D12, 70_reset_and_hazards.md R244). Safe for a host that keeps
  the rule; the model lacks the other runs. -/
  | inputChangedWhileBusy
  deriving DecidableEq, Repr

end Sys2Proof.Machine
end

