-- ==== Sys2Proof/Machine/Flags.lean ====
section
/-! DEFINITION. The rejection reasons and their codes, the outcome of a decode, and the STATUS word. -/

namespace Sys2Proof.Machine

/-- The four rejection reasons (60_exceptions.md R211 to R214). -/
inductive Reason where
  | multipleOrNoRows | wrongLength | preambleMissing | checksumMismatch
  deriving DecidableEq, Repr

/-- The outcome of one decode (00_scope.md R6). -/
inductive Verdict where
  | accepted (rec : Record)
  | rejected (reason : Reason)
  deriving DecidableEq, Repr

/-- `code(r)` (60_exceptions.md R215). -/
def reasonCode (r : Reason) : BitVec 3 :=
  match r with
  | .multipleOrNoRows => 1
  | .wrongLength => 2
  | .preambleMissing => 3
  | .checksumMismatch => 4

/-- The reason a code stands for; 0 and the reserved 5..7 stand for none (R215). -/
def reasonOfCode (c : BitVec 3) : Option Reason :=
  match c.toNat with
  | 1 => some .multipleOrNoRows
  | 2 => some .wrongLength
  | 3 => some .preambleMissing
  | 4 => some .checksumMismatch
  | _ => none

/-- Is the block BUSY? (10_state.md R31, R39). -/
def isBusy (p : Phase) : Bool :=
  match p with
  | .idle => false
  | .busy _ => true

/-- `STATUS` (10_state.md R27, R31): DONE in bit 0, VALID in bit 1, CODE in bits 4:2, BUSY computed from PHASE in
bit 5, bits 7:6 hardwired 0. -/
def statusWord (s : State) : BitVec 8 :=
  (0 : BitVec 2) ++ BitVec.ofBool (isBusy s.phase) ++ s.code ++ BitVec.ofBool s.valid ++ BitVec.ofBool s.done

end Sys2Proof.Machine
end

