-- ==== Sys2Proof/Machine/Ops.lean ====
section
/-! DEFINITION. The named operations of the machine: driving the ports, reset, the start and the commits of a decode,
reading a register, the host's view of the result. -/

namespace Sys2Proof.Machine

/-- Go on with `k` where a step has a next state so far; a fault or a refusal ends it. -/
def andThen (o : Host.Outcome State Fault Refusal) (k : State → Host.Outcome State Fault Refusal) :
    Host.Outcome State Fault Refusal :=
  match o with
  | .next s => k s
  | .fault f => .fault f
  | .refused r => .refused r

/-! ## The input ports -/

/-- A count as a 16-bit port carries it: too large a count is driven as 0xFFFF (10_state.md R22, R23). -/
def saturate16 (n : Nat) : BitVec 16 := BitVec.ofNat 16 (min n 0xFFFF)

/-- The pins with the three inputs driven. -/
def drivenPins (rowCount rowLength : Nat) (frame : Frame) (p : Pins) : Pins :=
  { p with rows := saturate16 rowCount, bits := saturate16 rowLength, frame := frame }

/-- The state with the three inputs driven. -/
def withInputs (rowCount rowLength : Nat) (frame : Frame) (s : State) : State :=
  { s with pins := drivenPins rowCount rowLength frame s.pins }

/-- Is a decode in progress: PHASE BUSY in a block that has been reset and is not held in reset. Before the first reset
PHASE is unspecified and says nothing (70_reset_and_hazards.md R243; notes/assumptions/21), and while RST is 1 a decode is
abandoned (R240). -/
def decodeInProgress (s : State) : Bool := isBusy s.phase && s.resetSeen && !s.pins.rst

/-- Drive the inputs. While a decode is in progress the host must keep them: a change has no step
(70_reset_and_hazards.md R244; notes/assumptions/7). -/
def driveInputs (rowCount rowLength : Nat) (frame : Frame) (s : State) : Host.Outcome State Fault Refusal :=
  if decodeInProgress s && drivenPins rowCount rowLength frame s.pins != s.pins then
    .refused .inputChangedWhileBusy
  else
    .next (withInputs rowCount rowLength frame s)

/-- Drive START. -/
def withStart (level : Bool) (s : State) : State :=
  { s with pins := { s.pins with start := level } }

/-- Drive RST. -/
def withRst (level : Bool) (s : State) : State :=
  { s with pins := { s.pins with rst := level } }

/-! ## Reset, start and commit -/

/-- What RST = 1 does (70_reset_and_hazards.md R240): PHASE IDLE, STATUS 0x00, record registers 0; a decode in
progress is abandoned. The ports are the host's and stay. -/
def applyReset (s : State) : State :=
  { s with
    phase := .idle, done := false, valid := false, code := 0, tempDc := 0, hum := 0, wavg := 0, wgust := 0,
    rainDmm := 0, battLow := 0, resetSeen := true }

/-- A START taken (40_frame_decoder.md R100): PHASE BUSY, DONE 0; `left` steps to its commit. -/
def takeStart (left : Nat) (s : State) : State :=
  { s with phase := .busy left, done := false }

/-- The commit of an accepted frame, in one atomic step (40_frame_decoder.md R101). -/
def commitAccepted (rec : Record) (s : State) : State :=
  { s with
    phase := .idle, done := true, valid := true, code := 0, tempDc := rec.tempDc, hum := rec.hum,
    wavg := rec.wavg, wgust := rec.wgust, rainDmm := rec.rainDmm, battLow := rec.battLow }

/-- The commit of a rejection, in one atomic step: the block's only exception entry (60_exceptions.md R217). Nothing
is saved but the code, there is no vector, and nothing is to return from (R218). -/
def commitRejected (reason : Reason) (s : State) : State :=
  { s with
    phase := .idle, done := true, valid := false, code := reasonCode reason, tempDc := 0, hum := 0, wavg := 0,
    wgust := 0, rainDmm := 0, battLow := 0 }

/-- The commit of an outcome (40_frame_decoder.md R100). -/
def commit (v : Verdict) (s : State) : State :=
  match v with
  | .accepted rec => commitAccepted rec s
  | .rejected reason => commitRejected reason s

/-! ## What the host gets back -/

/-- The value a READ of a register gives (10_state.md R38). -/
def registerValue (r : Register) (s : State) : Answer :=
  match r with
  | .status => .status (statusWord s)
  | .tempDc => .tempDc s.tempDc
  | .hum => .hum s.hum
  | .wavg => .wavg s.wavg
  | .wgust => .wgust s.wgust
  | .rainDmm => .rainDmm s.rainDmm
  | .battLow => .battLow s.battLow

/-- READ (10_state.md R38): no side effect but the answer to the host. Before the first reset a read has no meaning
(70_reset_and_hazards.md R243), and reading a reserved CODE is a fault (60_exceptions.md R215). -/
def readRegister (r : Register) (s : State) : Host.Outcome State Fault Refusal :=
  if s.resetSeen = false then
    .refused .readBeforeReset
  else if r = .status ∧ 5 ≤ s.code.toNat then
    .fault .reservedCode
  else
    .next { s with answers := s.answers ++ [registerValue r s] }

/-- The host's view of the result (10_state.md R43). -/
inductive Result where
  /-- DONE = 0: the registers do not describe the frame on the inputs (R28); or no reset yet, and the registers mean
  nothing (70_reset_and_hazards.md R243). -/
  | noResult
  | accepted (rec : Record)
  | rejected (reason : Reason)
  /-- DONE = 1 and VALID = 0 with a CODE of no reason: a state no rule produces (60_exceptions.md R215). -/
  | impossible
  deriving DecidableEq, Repr

/-- The record registers as a record. -/
def recordOf (s : State) : Record where
  tempDc := s.tempDc
  hum := s.hum
  wavg := s.wavg
  wgust := s.wgust
  rainDmm := s.rainDmm
  battLow := s.battLow

/-- The result as an option (10_state.md R43): none while DONE = 0, a record when DONE = 1 and VALID = 1, a reason when
DONE = 1 and VALID = 0. Before the first reset the registers have no value (70_reset_and_hazards.md R243), so there is no
result. -/
def resultOf (s : State) : Result :=
  if s.resetSeen && s.done then
    if s.valid then .accepted (recordOf s)
    else
      match reasonOfCode s.code with
      | some r => .rejected r
      | none => .impossible
  else .noResult

end Sys2Proof.Machine
end

