-- ==== Sys2Proof/Machine/Transactions.lean ====
section
/-! DEFINITION. The meanings of the five classes of the DECODE operation. Each is the whole transaction of its class as one
atomic step (40_frame_decoder.md R110), and equally the commit of a decode in progress (R101, 60_exceptions.md R217):
the commit writes everything the START wrote. No meaning tests the gates again: the class already says which failed
(30_encoding.md R75; notes/assumptions/13). -/

namespace Sys2Proof.Machine

/-- `DECODE.REJ_ROWS`: Rejected(MultipleOrNoRows), code 1 (40_frame_decoder.md R103). Neither the length nor the frame
is read (30_encoding.md R76). -/
def execRejRows (_rows _bits : BitVec 16) (_frame : Frame) (s : State) : Host.Outcome State Fault Refusal :=
  .next (commitRejected .multipleOrNoRows s)

/-- `DECODE.REJ_LEN`: Rejected(WrongLength), code 2 (40_frame_decoder.md R104). The frame is not read. -/
def execRejLen (_bits : BitVec 16) (_frame : Frame) (s : State) : Host.Outcome State Fault Refusal :=
  .next (commitRejected .wrongLength s)

/-- `DECODE.REJ_PRE`: Rejected(PreambleMissing), code 3 (40_frame_decoder.md R105). Bytes 1..9 have no effect. -/
def execRejPre (_byte0 : BitVec 8) (_rest : BitVec 72) (s : State) : Host.Outcome State Fault Refusal :=
  .next (commitRejected .preambleMissing s)

/-- `DECODE.REJ_CRC`: Rejected(ChecksumMismatch), code 4 (41_crc8_validator.md R143). No field is extracted. -/
def execRejCrc (_f : FrameFields) (s : State) : Host.Outcome State Fault Refusal :=
  .next (commitRejected .checksumMismatch s)

/-- `DECODE.ACCEPT`: the record of the fields is assembled and committed (40_frame_decoder.md R107, R101). The fields
`u`, `s` and `c` feed no register (30_encoding.md R77). -/
def execAccept (f : FrameFields) (s : State) : Host.Outcome State Fault Refusal :=
  .next (commitAccepted (assemble f.t f.h f.a f.g f.r f.b) s)

end Sys2Proof.Machine
end

