-- ==== Sys2Proof/Machine/Dispatch.lean ====
section
/-! DEFINITION. One arm for each class of a transaction word. -/

namespace Sys2Proof.Machine

/-- The meaning of an instruction. -/
def exec (i : Instr) (s : State) : Host.Outcome State Fault Refusal :=
  match i with
  | .rejRows rows bits frame => Sys2Proof.Machine.execRejRows rows bits frame s
  | .rejLen bits frame => Sys2Proof.Machine.execRejLen bits frame s
  | .rejPre byte0 rest => Sys2Proof.Machine.execRejPre byte0 rest s
  | .rejCrc f => Sys2Proof.Machine.execRejCrc f s
  | .accept f => Sys2Proof.Machine.execAccept f s

end Sys2Proof.Machine
end

