-- ==== Sys2Proof/Machine/Block.lean ====
section
/-! DEFINITION. What one step does: the host's next move, if any, and one cycle of the block, over any parameters
(00_scope.md R5). One step is one unit of time of the two-step form (notes/assumptions/3). -/

namespace Sys2Proof.Machine

/-- The transaction word on the input ports (30_encoding.md R70). -/
def inputWord (s : State) : TxWord := txWord s.pins.rows s.pins.bits s.pins.frame

/-- Run the decode of the word on the ports: fetch it, decode its class, execute the class. -/
def runDecode (p : Params) (s : State) : Host.Outcome State Fault Refusal :=
  exec (classifyWith p.crc8Fn (inputWord s)) s

/-- A START in IDLE (40_frame_decoder.md R100). Its commit comes `LATENCY` steps later; with `LATENCY = 0` it comes in
this same step, so that no BUSY state is seen (10_state.md R39). -/
def startCycle (p : Params) (s : State) : Host.Outcome State Fault Refusal :=
  let s' := takeStart (p.latency s.latencyIdx) { s with latencyIdx := s.latencyIdx + 1 }
  match p.latency s.latencyIdx with
  | 0 => runDecode p s'
  | _ + 1 => .next s'

/-- A cycle before the first reset, RST low. PHASE is unspecified there (70_reset_and_hazards.md R243), so it is not read:
a START is refused whatever PHASE holds. DESIGN CHOICE (notes/assumptions/21): without a START nothing happens, so no
decode is in progress and none commits. -/
def powerUpCycle (s : State) : Host.Outcome State Fault Refusal :=
  if s.pins.start then .refused .startBeforeReset else .next s

/-- A cycle of a block that has been reset, RST low: in IDLE a START is taken (40_frame_decoder.md R100); in BUSY a START
is ignored (R109) and the decode goes on to its commit (70_reset_and_hazards.md R249). -/
def runningCycle (p : Params) (s : State) : Host.Outcome State Fault Refusal :=
  match s.phase with
  | .idle => if s.pins.start then startCycle p s else .next s
  | .busy 0 => runDecode p s
  | .busy 1 => runDecode p s
  | .busy (n + 2) => .next { s with phase := .busy (n + 1) }

/-- One cycle of the block at the present levels of its ports. RST wins over everything (70_reset_and_hazards.md R240);
before the first reset the block does not run (R243). -/
def blockCycle (p : Params) (s : State) : Host.Outcome State Fault Refusal :=
  if s.pins.rst then .next (applyReset s)
  else if s.resetSeen then runningCycle p s
  else powerUpCycle s

/-- The DECODE transaction (30_encoding.md R80) as one atomic step from IDLE (40_frame_decoder.md R110): the inputs are
driven, START is raised and lowered, the outcome is committed. Before the first reset its START is refused
(70_reset_and_hazards.md R243). -/
def decodeTransaction (p : Params) (rowCount rowLength : Nat) (frame : Frame) (s : State) :
    Host.Outcome State Fault Refusal :=
  if s.resetSeen then
    runDecode p (withStart false (withInputs rowCount rowLength frame s))
  else
    .refused .startBeforeReset

/-- Can a DECODE transaction begin: no decode in progress, and the block not held in reset (40_frame_decoder.md R100). -/
def readyForDecode (s : State) : Bool := !decodeInProgress s && !s.pins.rst

/-- One step: the host's next move and the block's cycle. A transaction is one step; a DECODE waits, unbegun, until the
block is ready (30_encoding.md R80: "raises START with the block IDLE"). A READ sees the registers before the cycle. -/
def stepWith (p : Params) (s : State) : Host.Outcome State Fault Refusal :=
  match s.script with
  | [] => blockCycle p s
  | .reset :: rest => .next (applyReset (withRst false { s with script := rest }))
  | .decode n l f :: rest =>
    if readyForDecode s then decodeTransaction p n l f { s with script := rest } else blockCycle p s
  | .read r :: rest => andThen (readRegister r { s with script := rest }) (blockCycle p)
  | .drive n l f :: rest => andThen (driveInputs n l f { s with script := rest }) (blockCycle p)
  | .setStart v :: rest => blockCycle p (withStart v { s with script := rest })
  | .setRst v :: rest => blockCycle p (withRst v { s with script := rest })
  | .wait :: rest => blockCycle p { s with script := rest }

/-- The state in which the very next step runs the DECODE of the word `w`: that transaction is put before the host's
other moves, and the block is made ready for it (IDLE, out of reset, reset once). -/
def withDecodeNext (w : TxWord) (s : State) : State :=
  { s with
    phase := .idle, resetSeen := true, pins := { s.pins with rst := false },
    script := .decode (rowsField w).toNat (bitsField w).toNat (frameField w) :: s.script }

end Sys2Proof.Machine
end

