-- ==== Sys2Proof/Machine/Step.lean ====
section
/-! DEFINITION. The step of the machine: `stepWith` at the machine's parameters, and the state that fetches a given word
next. -/

namespace Sys2Proof.Machine

/-- One step, with the default `CRC8_FN` (41_crc8_validator.md R141) and a free `LATENCY`. -/
def step (s : State) : Host.Outcome State Fault Refusal := stepWith machineParams s

/-- `s` with the DECODE of the table word `w` as the host's next transaction (notes/assumptions/12). -/
def State.withFetchWord (s : State) (nbits w : Nat) : State := withDecodeNext (wordOfBits nbits w) s

end Sys2Proof.Machine
end

