-- ==== Sys2Proof/Machine/FrameDecoder.lean ====
section
/-! DEFINITION. `DecodeFrame` as the spec's pseudocode gives it (40_frame_decoder.md R102), with its four gates, over any
CRC primitive. The machine reaches the same outcome through the classes of a transaction word. -/

namespace Sys2Proof.Machine

/-- `GATE_ROWS` (R103): the reason it raises, if any. -/
def gateRows (rows : BitVec 16) : Option Reason :=
  if rows ≠ cRows then some .multipleOrNoRows else none

/-- `GATE_LEN` (R104). -/
def gateLen (bits : BitVec 16) : Option Reason :=
  if bits ≠ cFrameBits then some .wrongLength else none

/-- `GATE_PRE` (R105). -/
def gatePre (frame : Frame) : Option Reason :=
  if byteAt frame 0 ≠ cPreamble then some .preambleMissing else none

/-- `GATE_CRC` (41_crc8_validator.md R143). -/
def gateCrc (crc : Crc8Fn) (frame : Frame) : Option Reason :=
  if crcCalc crc frame ≠ byteAt frame cCrcPos then some .checksumMismatch else none

/-- The record of a frame that passed every gate: slices, scalers, assembly (R107). -/
def frameRecord (frame : Frame) : Record :=
  assemble (sliceTemp frame) (sliceHum frame) (sliceWavg frame) (sliceWgust frame) (sliceRain frame)
    (sliceBatt frame)

/-- `DecodeFrame` (R102): the gates in their fixed order (R106), the first that fails ending the decode. -/
def decodeFrameWith (crc : Crc8Fn) (rows bits : BitVec 16) (frame : Frame) : Verdict :=
  match gateRows rows with
  | some r => .rejected r
  | none =>
    match gateLen bits with
    | some r => .rejected r
    | none =>
      match gatePre frame with
      | some r => .rejected r
      | none =>
        match gateCrc crc frame with
        | some r => .rejected r
        | none => .accepted (frameRecord frame)

end Sys2Proof.Machine
end

