-- ==== Sys2Proof/Safety.lean ====
section
/-! DEFINITION. What the statements are made of: the invariant of the machine, runs of many steps, the registers a host
can read. -/

namespace Sys2Proof.Machine

/-! ## The invariant -/

/-- A decode in progress: DONE is 0 since its START (10_state.md R28), and it has steps left. -/
abbrev BusyOk (s : State) : Prop :=
  (isBusy s.phase = true → s.done = false) ∧ s.phase ≠ .busy 0

/-- STATUS as the commits and reset write it: no reserved CODE (60_exceptions.md R215), CODE 0 with VALID
(10_state.md R30), and a result in CODE or VALID once DONE is 1. -/
abbrev StatusOk (s : State) : Prop :=
  s.code.toNat ≤ 4 ∧ (s.valid = true → s.code = 0) ∧ (s.done = true → s.code = 0 → s.valid = true)

/-- The record registers as the commits and reset write them: the ranges and steps of 10_state.md section 3, and 0
wherever VALID is 0 (60_exceptions.md R217). -/
abbrev RecordOk (s : State) : Prop :=
  (-400 ≤ s.tempDc.toInt ∧ s.tempDc.toInt ≤ 3695) ∧
  (s.wavg.toNat ≤ 312120 ∧ s.wavg.toNat % 1224 = 0) ∧
  (s.wgust.toNat ≤ 312120 ∧ s.wgust.toNat % 1224 = 0) ∧
  (s.rainDmm.toNat ≤ 12285 ∧ s.rainDmm.toNat % 3 = 0) ∧
  (s.valid = false → recordOf s = { tempDc := 0, hum := 0, wavg := 0, wgust := 0, rainDmm := 0, battLow := 0 })

/-- The invariant. Before the first reset PHASE, STATUS and the record are unspecified (70_reset_and_hazards.md R243), so
they are bound only after it. -/
abbrev Inv (s : State) : Prop :=
  s.resetSeen = true → BusyOk s ∧ StatusOk s ∧ RecordOk s

/-! ## Runs -/

/-- `k` steps under parameters `p`, stopping at the first fault or refusal. -/
def runWith (p : Params) : Nat → State → Host.Outcome State Fault Refusal
  | 0, s => .next s
  | k + 1, s => andThen (stepWith p s) (runWith p k)

/-! ## The CRC of a frame, written out -/

/-- `CRC8_FN([F[0], ..., F[8]], 9, 0x31, 0xFF)` as 41_crc8_validator.md R143 writes it. -/
def payloadCrc (crc : Crc8Fn) (frame : Frame) : Byte :=
  crc [byteAt frame 0, byteAt frame 1, byteAt frame 2, byteAt frame 3, byteAt frame 4, byteAt frame 5,
    byteAt frame 6, byteAt frame 7, byteAt frame 8] 9 0x31 0xFF

/-! ## The host's moves at the ports -/

/-- The state as a move at the ports leaves it, before the block's cycle of that step. The two transactions, RESET and
DECODE, are steps of their own and stand here for no change. -/
def afterMove (m : HostMove) (s : State) : State :=
  match m with
  | .reset => s
  | .decode _ _ _ => s
  | .read r => { s with answers := s.answers ++ [registerValue r s] }
  | .drive n l f => withInputs n l f s
  | .setStart level => withStart level s
  | .setRst level => withRst level s
  | .wait => s

/-- The state as the host's next move, if it has one, leaves it. -/
def afterHead (s : State) : State :=
  match s.script with
  | [] => s
  | m :: _ => afterMove m s

/-- A move at a port: it drives the inputs, START or RST, or lets time pass. -/
def portMove (m : HostMove) : Bool :=
  match m with
  | .reset => false
  | .decode _ _ _ => false
  | .read _ => false
  | .drive _ _ _ => true
  | .setStart _ => true
  | .setRst _ => true
  | .wait => true

/-- A move that neither resets the block nor changes its inputs, and is no DECODE transaction: the host keeps its duty to a
decode in progress (70_reset_and_hazards.md R244). -/
def keepsDecode (p : Pins) (m : HostMove) : Bool :=
  match m with
  | .reset => false
  | .decode _ _ _ => false
  | .read _ => true
  | .drive n l f => saturate16 n == p.rows && saturate16 l == p.bits && f == p.frame
  | .setStart _ => true
  | .setRst level => !level
  | .wait => true

/-! ## What a host can observe of the block -/

/-- The output registers together (10_state.md R27 to R37). -/
def outputs (s : State) : BitVec 8 × Record := (statusWord s, recordOf s)

/-- A host move that neither starts a decode nor resets the block (20_memory.md R60 (4)). -/
def quietMove (m : HostMove) : Bool :=
  match m with
  | .reset => false
  | .decode _ _ _ => false
  | .read _ => true
  | .drive _ _ _ => true
  | .setStart level => !level
  | .setRst level => !level
  | .wait => true

end Sys2Proof.Machine
end

