-- ==== Sys2Proof/Certificates/Slice0/Obligations.lean ====
section
/-! DEFINITION. The statements for the provers. `crc` is any CRC-8 primitive and `p` any parameters of a model of the block
(00_scope.md R5) unless a statement names the machine's own. -/

open Sys2Proof Sys2Proof.Machine

/-! ## Encoding -/

/-- Decoding the word of a well-formed instruction gives it back, for every CRC primitive (30_encoding.md, the tables of
sections 2 and 4). -/
def Obligations.DecodeOfEncodeIsIdentity : Prop :=
  ∀ (crc : Crc8Fn) (i : Instr), i.wellFormedWith crc = true → classifyWith crc (encode i) = i

/-- Encoding the class of a word gives the word back, and the class is well-formed: every one of the 2^112 words has a
class (30_encoding.md sections 1 and 4). -/
def Obligations.EncodeOfDecodeIsIdentity : Prop :=
  ∀ (crc : Crc8Fn) (w : TxWord),
    encode (classifyWith crc w) = w ∧ (classifyWith crc w).wellFormedWith crc = true

/-- R75: the five classes, their conditions in order, outcome and CODE, in a block that has been reset (R243: before that no
decode begins and no register has a value). -/
def Obligations.WordClassesFollowTheTable : Prop :=
  ∀ (crc : Crc8Fn) (w : TxWord) (s : State), s.resetSeen = true → ∃ t, exec (classifyWith crc w) s = .next t ∧
    (if w.extractLsb' 96 16 ≠ 0x0001 then
      classifyWith crc w = .rejRows (w.extractLsb' 96 16) (w.extractLsb' 80 16) (w.extractLsb' 0 80) ∧
      t.code = 1 ∧ resultOf t = .rejected .multipleOrNoRows
    else if w.extractLsb' 80 16 ≠ 0x0050 then
      classifyWith crc w = .rejLen (w.extractLsb' 80 16) (w.extractLsb' 0 80) ∧
      t.code = 2 ∧ resultOf t = .rejected .wrongLength
    else if w.extractLsb' 72 8 ≠ 0xFF then
      classifyWith crc w = .rejPre (w.extractLsb' 72 8) (w.extractLsb' 0 72) ∧
      t.code = 3 ∧ resultOf t = .rejected .preambleMissing
    else if w.extractLsb' 0 8 ≠ payloadCrc crc (w.extractLsb' 0 80) then
      (∃ f, classifyWith crc w = .rejCrc f) ∧
      t.code = 4 ∧ resultOf t = .rejected .checksumMismatch
    else
      (∃ f, classifyWith crc w = .accept f) ∧
      t.code = 0 ∧ resultOf t = .accepted (frameRecord (w.extractLsb' 0 80)))

/-- The frame format covers `IN_FRAME` without gap or overlap (30_encoding.md R71): a frame is its preamble and its
fields, each field at the bits of the table; bytes 0..8 are what the CRC covers, byte 9 is the transmitted CRC, byte 7 is the
battery nibble and the rain high bits. -/
def Obligations.FrameFieldsPartitionTheFrame : Prop :=
  (∀ frame : Frame, byteAt frame 0 = 0xFF → frameOf (fieldsOf frame) = frame) ∧
  (∀ f : FrameFields, fieldsOf (frameOf f) = f ∧ byteAt (frameOf f) 0 = 0xFF) ∧
  (∀ frame : Frame, fieldsOf frame =
    { u := frame.extractLsb' 64 8, s := frame.extractLsb' 60 4, t := frame.extractLsb' 48 12,
      h := frame.extractLsb' 40 8, a := frame.extractLsb' 32 8, g := frame.extractLsb' 24 8,
      b := frame.extractLsb' 20 4, r := frame.extractLsb' 8 12, c := frame.extractLsb' 0 8 }) ∧
  (∀ frame : Frame,
    payload frame = [byteAt frame 0, byteAt frame 1, byteAt frame 2, byteAt frame 3, byteAt frame 4,
      byteAt frame 5, byteAt frame 6, byteAt frame 7, byteAt frame 8] ∧
    (fieldsOf frame).c = byteAt frame 9 ∧
    byteAt frame 7 = (fieldsOf frame).b ++ (fieldsOf frame).r.extractLsb' 8 4)

/-- Words written out in 95_test_vectors.md (V1, G2, G5, G9, K1) decode to their classes. -/
def Obligations.SpecWordsDecodeToTheirClasses : Prop :=
  classify 0x00010050ff00028a3c32320310ae =
    .accept { u := 0, s := 0, t := 0x28A, h := 60, a := 50, g := 50, b := 0, r := 0x310, c := 0xAE } ∧
  classify 0x00020050ff00028a3c32320310ae = .rejRows 2 80 0xff00028a3c32320310ae ∧
  classify 0x0001004fff00028a3c32320310ae = .rejLen 79 0xff00028a3c32320310ae ∧
  classify 0x00010050fe00028a3c32320310ae = .rejPre 0xFE 0x00028a3c32320310ae ∧
  classify 0x00010050ff00028a3c32320310af =
    .rejCrc { u := 0, s := 0, t := 0x28A, h := 60, a := 50, g := 50, b := 0, r := 0x310, c := 0xAF }

/-- What each class does not read does not matter (30_encoding.md section 4, don't-care bits: the spec marks them as
its own inference). -/
def Obligations.DontCareBitsDoNotMatter : Prop :=
  ∀ (crc : Crc8Fn) (s : State) (rows bits bits' : BitVec 16) (frame frame' : Frame),
    (rows ≠ 1 → exec (classifyWith crc (txWord rows bits frame)) s =
      exec (classifyWith crc (txWord rows bits' frame')) s) ∧
    (bits ≠ 80 → exec (classifyWith crc (txWord 1 bits frame)) s =
      exec (classifyWith crc (txWord 1 bits frame')) s) ∧
    (byteAt frame 0 ≠ 0xFF → byteAt frame' 0 = byteAt frame 0 →
      exec (classifyWith crc (txWord 1 80 frame)) s = exec (classifyWith crc (txWord 1 80 frame')) s)

/-! ## The step and the decode function -/

/-- The classes refine `DecodeFrame`: executing the class of a word commits the outcome of the pseudocode of
40_frame_decoder.md section 1 on that word's ports, for every CRC primitive and from every state. -/
def Obligations.ClassesRefineDecodeFrame : Prop :=
  ∀ (crc : Crc8Fn) (rows bits : BitVec 16) (frame : Frame) (s : State),
    exec (classifyWith crc (txWord rows bits frame)) s =
      .next (commit (decodeFrameWith crc rows bits frame) s)

/-- A step runs the decoded instruction: (a) a DECODE transaction on a ready block is `exec` of the class of its word, with
the inputs driven, START low again and the move taken off the script; (b) the commit cycle of a decode in progress is
`exec` of the class of the word on the ports; (c) so is a START with `LATENCY` 0, once the START is taken. The model's choices:
a step as one unit of time (notes/assumptions/3); in (a) the DECODE in one step and START low after it
(notes/assumptions/4); in (b) the commit from `busy 0` (notes/assumptions/15); in (c) the commit in the START's own step
(notes/assumptions/20). -/
def Obligations.StepRunsTheDecodedInstruction : Prop :=
  (∀ s : State, step s = stepWith machineParams s) ∧
  (∀ (p : Params) (s : State) (n l : Nat) (f : Frame) (rest : List HostMove) (i : Instr),
    s.script = .decode n l f :: rest → s.phase = .idle → s.pins.rst = false → s.resetSeen = true →
    classifyWith p.crc8Fn (txWord (saturate16 n) (saturate16 l) f) = i →
    stepWith p s =
      exec i { s with
        script := rest,
        pins := { rst := false, start := false, rows := saturate16 n, bits := saturate16 l, frame := f } }) ∧
  (∀ (p : Params) (s : State) (left : Nat) (i : Instr),
    s.script = [] → s.pins.rst = false → s.resetSeen = true → s.phase = .busy left → left ≤ 1 →
    classifyWith p.crc8Fn (txWord s.pins.rows s.pins.bits s.pins.frame) = i → stepWith p s = exec i s) ∧
  (∀ (p : Params) (s : State) (i : Instr),
    s.script = [] → s.pins.rst = false → s.pins.start = true → s.phase = .idle → s.resetSeen = true →
    p.latency s.latencyIdx = 0 →
    classifyWith p.crc8Fn (txWord s.pins.rows s.pins.bits s.pins.frame) = i →
    stepWith p s = exec i (takeStart 0 { s with latencyIdx := s.latencyIdx + 1 }))

/-- A word placed by `withFetchWord` is what the very next step runs (notes/assumptions/12). -/
def Obligations.FetchedWordRunsNext : Prop :=
  ∀ (s : State) (nbits w : Nat) (i : Instr), decodeTableWord nbits w = some i →
    step (s.withFetchWord nbits w) =
      exec i { s with
        phase := .idle, resetSeen := true,
        pins :=
          { rst := false, start := false, rows := rowsField (wordOfBits nbits w),
            bits := bitsField (wordOfBits nbits w), frame := frameField (wordOfBits nbits w) } }

/-- The gates run in their fixed order and the first that fails ends the decode with its reason (R106); the CRC is any
pure function (R140). -/
def Obligations.DecodeRunsTheGatesInOrder : Prop :=
  ∀ (p : Params) (s : State),
    runDecode p s = .next (commit
      (if s.pins.rows ≠ 1 then .rejected .multipleOrNoRows
      else if s.pins.bits ≠ 80 then .rejected .wrongLength
      else if byteAt s.pins.frame 0 ≠ 0xFF then .rejected .preambleMissing
      else if payloadCrc p.crc8Fn s.pins.frame ≠ byteAt s.pins.frame 9 then .rejected .checksumMismatch
      else .accepted (frameRecord s.pins.frame)) s)

/-- R21: no decode reads an output register or anything an earlier decode left. Two blocks with the same inputs commit the
same outputs, whatever their states, and show the same result if both have been reset (R243). -/
def Obligations.OutcomeDependsOnTheInputsAlone : Prop :=
  ∀ (p : Params) (s s' : State),
    s.pins.rows = s'.pins.rows → s.pins.bits = s'.pins.bits → s.pins.frame = s'.pins.frame →
    ∃ t t', runDecode p s = .next t ∧ runDecode p s' = .next t' ∧ outputs t = outputs t' ∧
      (s.resetSeen = true → s'.resetSeen = true → resultOf t = resultOf t')

/-! ## The gates: STATUS as the commit leaves it, and the result of a block that has been reset (R243) -/

/-- R103: a row count other than 1 rejects with MultipleOrNoRows, whatever the length and the frame. -/
def Obligations.RowCountGateRejects : Prop :=
  ∀ (p : Params) (s : State), s.pins.rows ≠ 1 →
    ∃ t, runDecode p s = .next t ∧ statusWord t = 0x05 ∧
      (s.resetSeen = true → resultOf t = .rejected .multipleOrNoRows)

/-- R104: one row of a length other than 80 bits rejects with WrongLength, whatever the frame. -/
def Obligations.LengthGateRejects : Prop :=
  ∀ (p : Params) (s : State), s.pins.rows = 1 → s.pins.bits ≠ 80 →
    ∃ t, runDecode p s = .next t ∧ statusWord t = 0x09 ∧
      (s.resetSeen = true → resultOf t = .rejected .wrongLength)

/-- R105: one row of 80 bits whose byte 0 is not 0xFF rejects with PreambleMissing, whatever bytes 1..9 and the CRC
primitive are. -/
def Obligations.PreambleGateRejects : Prop :=
  ∀ (p : Params) (s : State), s.pins.rows = 1 → s.pins.bits = 80 → s.pins.frame.extractLsb' 72 8 ≠ 0xFF →
    ∃ t, runDecode p s = .next t ∧ statusWord t = 0x0D ∧
      (s.resetSeen = true → resultOf t = .rejected .preambleMissing)

/-- R143: past the structural gates the frame is accepted exactly when the CRC of bytes 0..8 is byte 9, and rejected with
ChecksumMismatch otherwise, for every CRC primitive. -/
def Obligations.ChecksumGateDecidesAcceptance : Prop :=
  ∀ (p : Params) (s : State), s.pins.rows = 1 → s.pins.bits = 80 → byteAt s.pins.frame 0 = 0xFF →
    ∃ t, runDecode p s = .next t ∧
      (payloadCrc p.crc8Fn s.pins.frame ≠ byteAt s.pins.frame 9 →
        statusWord t = 0x11 ∧ (s.resetSeen = true → resultOf t = .rejected .checksumMismatch)) ∧
      (payloadCrc p.crc8Fn s.pins.frame = byteAt s.pins.frame 9 →
        statusWord t = 0x03 ∧ (s.resetSeen = true → resultOf t = .accepted (frameRecord s.pins.frame)))

/-! ## What each class writes, and its frame -/

/-- R217: each rejection class answers a next state in which CODE holds the class's code, VALID is 0, DONE is 1, the six
record registers are 0 and PHASE is IDLE; nothing else changes. -/
def Obligations.RejectionClassesCommitTheirCode : Prop :=
  ∀ s : State,
    (∀ rows bits frame, exec (.rejRows rows bits frame) s = .next { s with
      phase := .idle, done := true, valid := false, code := 1, tempDc := 0, hum := 0, wavg := 0, wgust := 0,
      rainDmm := 0, battLow := 0 }) ∧
    (∀ bits frame, exec (.rejLen bits frame) s = .next { s with
      phase := .idle, done := true, valid := false, code := 2, tempDc := 0, hum := 0, wavg := 0, wgust := 0,
      rainDmm := 0, battLow := 0 }) ∧
    (∀ byte0 rest, exec (.rejPre byte0 rest) s = .next { s with
      phase := .idle, done := true, valid := false, code := 3, tempDc := 0, hum := 0, wavg := 0, wgust := 0,
      rainDmm := 0, battLow := 0 }) ∧
    (∀ f, exec (.rejCrc f) s = .next { s with
      phase := .idle, done := true, valid := false, code := 4, tempDc := 0, hum := 0, wavg := 0, wgust := 0,
      rainDmm := 0, battLow := 0 })

/-- R101 and R107: ACCEPT answers a next state in which every record register holds the scaled field, VALID is 1, CODE 0,
DONE 1 and PHASE IDLE; nothing else changes. -/
def Obligations.AcceptCommitsTheRecord : Prop :=
  ∀ (f : FrameFields) (s : State), exec (.accept f) s = .next { s with
    phase := .idle, done := true, valid := true, code := 0,
    tempDc := scaleTemp f.t, hum := passHum f.h, wavg := scaleWind f.a, wgust := scaleWind f.g,
    rainDmm := scaleRain f.r, battLow := classBatt f.b }

/-- Every class completes from every state, and leaves the input ports, the host's script and answers and the model's own
counters as they were (40_frame_decoder.md section 4: a decode writes nothing outside the output registers and PHASE). -/
def Obligations.DecodeWritesOnlyOutputsAndPhase : Prop :=
  ∀ (i : Instr) (s : State), ∃ t, exec i s = .next t ∧
    t.pins = s.pins ∧ t.script = s.script ∧ t.answers = s.answers ∧ t.resetSeen = s.resetSeen ∧
    t.latencyIdx = s.latencyIdx ∧ t.phase = .idle ∧ t.done = true

/-- R30: CODE is written at every commit with the outcome's code, 0 for an accepted frame and 1 to 4 for a rejection, and VALID
is 1 exactly when CODE is 0; after reset CODE, DONE and VALID are 0, which is no result. -/
def Obligations.ValidExactlyWhenCodeIsZero : Prop :=
  (∀ (rec : Record) (s : State), (commit (.accepted rec) s).code = 0) ∧
  (∀ (r : Reason) (s : State), (commit (.rejected r) s).code = reasonCode r ∧ 1 ≤ (reasonCode r).toNat ∧
    (reasonCode r).toNat ≤ 4) ∧
  (∀ (i : Instr) (s : State), ∃ t, exec i s = .next t ∧ t.code.toNat ≤ 4 ∧ (t.valid = true ↔ t.code = 0)) ∧
  (∀ s : State, (applyReset s).code = 0 ∧ (applyReset s).done = false ∧ (applyReset s).valid = false ∧
    resultOf (applyReset s) = .noResult)

/-- The bits of an accepted frame that feed no record field: byte 1 and the high nibble of byte 2 (30_encoding.md
section 5), and the CRC byte, which no field of the record is made of (40_frame_decoder.md section 3). -/
def Obligations.IgnoredFieldsFeedNoRegister : Prop :=
  ∀ (f : FrameFields) (u : BitVec 8) (x : BitVec 4) (c : BitVec 8) (s : State),
    exec (.accept { f with u := u, s := x, c := c }) s = exec (.accept f) s

/-! ## The slicer -/

/-- R52: `MemRead(a, n)` is the bytes from a on, the first most significant. -/
def Obligations.MemReadIsBigEndian : Prop :=
  (∀ (frame : Frame) (a : Nat) (h : a + 1 ≤ 10),
    (memRead frame a 1 h).toNat = (byteAt frame ⟨a, by omega⟩).toNat) ∧
  (∀ (frame : Frame) (a n : Nat) (h : a + (n + 1) ≤ 10),
    (memRead frame a (n + 1) h).toNat =
      (byteAt frame ⟨a, by omega⟩).toNat * 2 ^ (8 * n) + (memRead frame (a + 1) n (by omega)).toNat)

/-- R160 to R165: each slice is the bits of the frame its rule names. -/
def Obligations.SlicesReadTheirFrameBits : Prop :=
  ∀ frame : Frame,
    sliceTemp frame = frame.extractLsb' 48 12 ∧
    sliceTemp frame = (byteAt frame 2).extractLsb' 0 4 ++ byteAt frame 3 ∧
    sliceHum frame = frame.extractLsb' 40 8 ∧ sliceHum frame = byteAt frame 4 ∧
    sliceWavg frame = frame.extractLsb' 32 8 ∧ sliceWavg frame = byteAt frame 5 ∧
    sliceWgust frame = frame.extractLsb' 24 8 ∧ sliceWgust frame = byteAt frame 6 ∧
    sliceRain frame = frame.extractLsb' 8 12 ∧
    sliceRain frame = (byteAt frame 7).extractLsb' 0 4 ++ byteAt frame 8 ∧
    sliceBatt frame = frame.extractLsb' 20 4 ∧ sliceBatt frame = (byteAt frame 7).extractLsb' 4 4

/-- The battery nibble and the rain high bits partition byte 7 (42_bit_slicer.md, properties: the spec's own
inference). -/
def Obligations.BatteryAndRainPartitionByteSeven : Prop :=
  ∀ frame : Frame, byteAt frame 7 = sliceBatt frame ++ (sliceRain frame).extractLsb' 8 4

/-! ## The scaler -/

/-- R180: TEMP_DC after an accepted frame is `temp_raw - 400`, in -400..3695, and the temperature is exactly a tenth of
it in degrees. -/
def Obligations.TemperatureIsOffsetExactly : Prop :=
  ∀ (f : FrameFields) (s : State), ∃ t, exec (.accept f) s = .next t ∧
    t.tempDc.toInt = (f.t.toNat : Int) - 400 ∧ -400 ≤ t.tempDc.toInt ∧ t.tempDc.toInt ≤ 3695 ∧
    (t.tempDc.toInt : ℚ) / 10 = ((f.t.toNat : ℚ) - 400) / 10

/-- R181: HUM after an accepted frame is the raw byte, values above 100 included. -/
def Obligations.HumidityPassesThrough : Prop :=
  ∀ (f : FrameFields) (s : State), ∃ t, exec (.accept f) s = .next t ∧ t.hum = f.h

/-- R182 and R183: WAVG and WGUST after an accepted frame are 1224 times their raw bytes, exactly
`raw * 34/100 * 36/10` km/h in thousandths. -/
def Obligations.WindIsScaledExactly : Prop :=
  ∀ (f : FrameFields) (s : State), ∃ t, exec (.accept f) s = .next t ∧
    t.wavg.toNat = 1224 * f.a.toNat ∧ (t.wavg.toNat : ℚ) / 1000 = (f.a.toNat : ℚ) * (34 / 100) * (36 / 10) ∧
    t.wgust.toNat = 1224 * f.g.toNat ∧ (t.wgust.toNat : ℚ) / 1000 = (f.g.toNat : ℚ) * (34 / 100) * (36 / 10)

/-- R184: RAIN_DMM after an accepted frame is 3 times the raw counter, exactly `raw * 3/10` mm in tenths; nothing is
added up. -/
def Obligations.RainIsScaledExactly : Prop :=
  ∀ (f : FrameFields) (s : State), ∃ t, exec (.accept f) s = .next t ∧
    t.rainDmm.toNat = 3 * f.r.toNat ∧ (t.rainDmm.toNat : ℚ) / 10 = (f.r.toNat : ℚ) * (3 / 10)

/-- R185: BATT_LOW after an accepted frame is 1 exactly when the nibble is 1, and 0 otherwise. -/
def Obligations.BatteryIsLowExactlyForNibbleOne : Prop :=
  ∀ (f : FrameFields) (s : State), ∃ t, exec (.accept f) s = .next t ∧
    (f.b = 1 → t.battLow = 1) ∧ (f.b ≠ 1 → t.battLow = 0)

/-- The scalers lose nothing, but for the battery classifier (43_measurement_scaler.md, arithmetic laws: the spec's own
inference). -/
def Obligations.ScalersAreInjectiveExceptBattery : Prop :=
  Function.Injective scaleTemp ∧ Function.Injective passHum ∧ Function.Injective scaleWind ∧
  Function.Injective scaleRain ∧ ¬ Function.Injective classBatt

/-! ## STATUS, reads and the result view -/

/-- R27 and R31: the fields of STATUS at their bits, BUSY from PHASE, bits 7:6 always 0; STATUS is 0x00 after reset. -/
def Obligations.StatusWordLayout : Prop :=
  (∀ s : State, statusWord (applyReset s) = 0x00) ∧
  ∀ s : State,
    (statusWord s).getLsbD 0 = s.done ∧ (statusWord s).getLsbD 1 = s.valid ∧
    (statusWord s).extractLsb' 2 3 = s.code ∧
    ((statusWord s).getLsbD 5 = true ↔ s.phase ≠ .idle) ∧ (statusWord s).extractLsb' 6 2 = 0

/-- R43: no result while DONE is 0; the record after an accepted commit; the reason after a rejection; in a block that has
been reset (R243). -/
def Obligations.ResultViewReadsTheOutcome : Prop :=
  (∀ s : State, s.done = false → resultOf s = .noResult) ∧
  (∀ s : State, s.resetSeen = true → s.done = true → s.valid = true → resultOf s = .accepted
    { tempDc := s.tempDc, hum := s.hum, wavg := s.wavg, wgust := s.wgust, rainDmm := s.rainDmm,
      battLow := s.battLow }) ∧
  (∀ (s : State) (r : Reason), s.resetSeen = true → s.done = true → s.valid = false → s.code = reasonCode r →
    resultOf s = .rejected r)

/-- R38: a READ is a step that lets time pass and gives the host the register's value; it changes nothing else. -/
def Obligations.ReadHasNoSideEffect : Prop :=
  ∀ (p : Params) (s : State) (r : Register) (rest : List HostMove),
    s.resetSeen = true → (r = .status → s.code.toNat ≤ 4) →
    stepWith p { s with script := .read r :: rest } =
      stepWith p { s with script := .wait :: rest, answers := s.answers ++ [registerValue r s] } ∧
    (s.phase = .idle → s.pins.rst = false → s.pins.start = false →
      stepWith p { s with script := .read r :: rest } =
        .next { s with script := rest, answers := s.answers ++ [registerValue r s] })

/-- R215: the codes of the four reasons, 0 for an accepted frame; reading a STATUS whose CODE is 5, 6 or 7 is a fault. -/
def Obligations.ReasonCodesAndReservedCodes : Prop :=
  (reasonCode .multipleOrNoRows = 1 ∧ reasonCode .wrongLength = 2 ∧ reasonCode .preambleMissing = 3 ∧
    reasonCode .checksumMismatch = 4) ∧
  (∀ (rec : Record) (s : State), (commit (.accepted rec) s).code = 0) ∧
  (∀ (r : Reason) (s : State), (commit (.rejected r) s).code = reasonCode r) ∧
  (∀ (p : Params) (s : State) (rest : List HostMove),
    s.resetSeen = true → s.code = 5 ∨ s.code = 6 ∨ s.code = 7 →
    stepWith p { s with script := .read .status :: rest } = .fault .reservedCode)

/-! ## START, latency, reset, power-up -/

/-- R100: a START with RST low in IDLE sets PHASE to BUSY and clears DONE; every other output register keeps its value. (With
`LATENCY` 0 the commit comes in the same step: StepRunsTheDecodedInstruction.) -/
def Obligations.StartSetsBusyAndClearsDone : Prop :=
  ∀ (p : Params) (s : State) (left : Nat),
    s.script = [] → s.pins.rst = false → s.pins.start = true → s.phase = .idle → s.resetSeen = true →
    p.latency s.latencyIdx = left + 1 →
    stepWith p s =
      .next { s with phase := .busy (left + 1), done := false, latencyIdx := s.latencyIdx + 1 }

/-- R109: raising START (or lowering it) while BUSY does to the block what waiting does; the START is not taken. (Before the
first reset PHASE is unspecified and a START is refused: BeforeTheFirstResetStartAndReadAreRefused.) -/
def Obligations.StartWhileBusyIsIgnored : Prop :=
  ∀ (p : Params) (s : State) (left : Nat) (v : Bool) (rest : List HostMove),
    s.phase = .busy left → s.resetSeen = true →
    ∃ t, stepWith p { s with script := .wait :: rest } = .next t ∧
      stepWith p { s with script := .setStart v :: rest } =
        .next { t with pins := { t.pins with start := v } }

/-- A decode in progress never hangs and is never cancelled but by RST: whatever else the host does (reads, waits, moves of
START, driving the inputs it already drives), every step brings the commit nearer, and the last one commits the outcome of
`DecodeFrame` on the inputs (70_reset_and_hazards.md section 4). The model's choices: a step of whatever kind is one unit of
`LATENCY` (notes/assumptions/3), the count of steps left is the model's own and stands for the free `LATENCY`
(notes/assumptions/2 and 15), and `busy 0` commits as `busy 1` does (notes/assumptions/15). -/
def Obligations.EveryBusyStepApproachesTheCommit : Prop :=
  ∀ (p : Params) (s t : State) (left : Nat),
    s.phase = .busy left → s.resetSeen = true → s.pins.rst = false → s.script.head? ≠ some .reset →
    s.script.head? ≠ some (.setRst true) → stepWith p s = .next t →
    (2 ≤ left → t.phase = .busy (left - 1) ∧ t.done = s.done ∧ t.valid = s.valid ∧ t.code = s.code ∧
      recordOf t = recordOf s) ∧
    (left ≤ 1 → t.phase = .idle ∧ t.done = true ∧
      commit (decodeFrameWith p.crc8Fn s.pins.rows s.pins.bits s.pins.frame) t = t)

/-- Every START taken in IDLE is followed by its commit after `LATENCY` (70_reset_and_hazards.md section 4), whatever moves
the host makes meanwhile that neither reset the block nor change its inputs: waits, READs, moves of START, driving the values
that are there, lowering RST. Until then the block is BUSY with DONE 0 and the other output registers as they were; the outcome
is that of `DecodeFrame` on the inputs, whatever `LATENCY` is. The model's choices: `LATENCY` is a free value that counts
steps of the host and the block (notes/assumptions/2 and 3), and the commit comes `LATENCY` steps after the START's own, in it
for 0 (notes/assumptions/20). -/
def Obligations.CommitFollowsStartAfterLatency : Prop :=
  ∀ (p : Params) (s : State),
    s.phase = .idle → s.pins.rst = false → s.resetSeen = true → s.code.toNat ≤ 4 →
    (afterHead s).pins.start = true →
    (∀ m ∈ s.script.take (p.latency s.latencyIdx + 1), keepsDecode s.pins m = true) →
    (∃ t, runWith p (p.latency s.latencyIdx + 1) s = .next t ∧ t.phase = .idle ∧ t.done = true ∧
      commit (decodeFrameWith p.crc8Fn s.pins.rows s.pins.bits s.pins.frame) t = t ∧
      t.pins = { s.pins with start := t.pins.start } ∧ t.script = s.script.drop (p.latency s.latencyIdx + 1) ∧
      t.latencyIdx = s.latencyIdx + 1) ∧
    (∀ k, 1 ≤ k → k ≤ p.latency s.latencyIdx → ∃ t, runWith p k s = .next t ∧
      t.phase = .busy (p.latency s.latencyIdx + 1 - k) ∧ t.done = false ∧ t.valid = s.valid ∧ t.code = s.code ∧
      recordOf t = recordOf s ∧ t.pins = { s.pins with start := t.pins.start } ∧ t.script = s.script.drop k)

/-- A host that keeps START high and makes no move decodes the same inputs repeatedly, once per return to IDLE
(10_state.md section 2, START): the first decode commits; where the second latency is not 0 the next step is BUSY again with
DONE 0; and after the second latency the same outcome is committed again. The model's choices: START is taken anew in the step
after each return to IDLE (notes/assumptions/11), and the steps are counted as notes/assumptions/2, 3 and 20 say; where the
second latency is 0, only the model's own count of STARTs shows the second decode. -/
def Obligations.HeldStartDecodesRepeatedly : Prop :=
  ∀ (p : Params) (s : State) (first second : Nat),
    s.script = [] → s.pins.rst = false → s.pins.start = true → s.phase = .idle → s.resetSeen = true →
    p.latency s.latencyIdx = first → p.latency (s.latencyIdx + 1) = second →
    runWith p (first + 1) s = .next (commit
      (decodeFrameWith p.crc8Fn s.pins.rows s.pins.bits s.pins.frame)
      { s with latencyIdx := s.latencyIdx + 1 }) ∧
    (1 ≤ second → ∃ t, runWith p (first + 2) s = .next t ∧ t.phase = .busy second ∧ t.done = false ∧
      t.latencyIdx = s.latencyIdx + 2) ∧
    runWith p ((first + 1) + (second + 1)) s = .next (commit
      (decodeFrameWith p.crc8Fn s.pins.rows s.pins.bits s.pins.frame)
      { s with latencyIdx := s.latencyIdx + 2 })

/-- The two-step form and the atomic DECODE agree (40_frame_decoder.md section 4, transaction view: the spec's
own inference): driving the inputs, raising START, holding for `LATENCY` steps and lowering START ends in the state the DECODE
transaction reaches in one step, but for the model's own count of STARTs. -/
def Obligations.TwoStepFormEqualsAtomicDecode : Prop :=
  ∀ (p : Params) (s : State) (n l : Nat) (f : Frame),
    s.phase = .idle → s.pins.rst = false → s.pins.start = false → s.resetSeen = true →
    ∃ t, stepWith p { s with script := [.decode n l f] } = .next t ∧
      runWith p (p.latency s.latencyIdx + 3)
        { s with
          script := [.drive n l f, .setStart true] ++ List.replicate (p.latency s.latencyIdx) .wait ++
            [.setStart false] } =
        .next { t with latencyIdx := s.latencyIdx + 1 }

/-- R240: while RST is 1 a cycle of the block, from whatever state and at whatever levels of the other ports, puts every output
register at its reset value and PHASE at IDLE; a decode in progress commits nothing and a START is ignored; the hardwired
constants have no storage. When RST returns to 0 the block is IDLE with no result, stays so without a START, and takes the next
START as `startCycle` does (with a latency other than 0: PHASE BUSY). -/
def Obligations.RstHoldsTheBlockInReset : Prop :=
  ∀ (p : Params) (s : State), s.pins.rst = true → ∃ t, blockCycle p s = .next t ∧
    t = { s with
      phase := .idle, done := false, valid := false, code := 0, tempDc := 0, hum := 0, wavg := 0, wgust := 0,
      rainDmm := 0, battLow := 0, resetSeen := true } ∧
    statusWord t = 0x00 ∧ resultOf t = .noResult ∧
    blockCycle p (withRst false (withStart false t)) = .next (withRst false (withStart false t)) ∧
    blockCycle p (withRst false (withStart true t)) = startCycle p (withRst false (withStart true t)) ∧
    (∀ left, p.latency t.latencyIdx = left + 1 →
      ∃ u, blockCycle p (withRst false (withStart true t)) = .next u ∧ u.phase = .busy (left + 1))

/-- A step with RST high resets the block from every state, whatever the host does in it that leaves RST high and is not
refused: no move, a wait, driving the inputs, moving START, raising RST, a READ of a block that has been reset, or a DECODE,
which waits. So does the RESET transaction, which leaves RST low; and lowering RST leaves an IDLE block with no START as it
is. The model's choices: a step is one move and one cycle (notes/assumptions/3), RST wins over START and commit in its cycle
(notes/assumptions/19), a DECODE under RST waits (notes/assumptions/4), and RESET is one step (notes/assumptions/5). -/
def Obligations.ResetFromEveryState : Prop :=
  (∀ s : State, applyReset s = { s with
    phase := .idle, done := false, valid := false, code := 0, tempDc := 0, hum := 0, wavg := 0, wgust := 0,
    rainDmm := 0, battLow := 0, resetSeen := true }) ∧
  (∀ (p : Params) (s : State), s.script = [] → s.pins.rst = true → stepWith p s = .next (applyReset s)) ∧
  (∀ (p : Params) (s : State) (m : HostMove) (rest : List HostMove),
    s.script = m :: rest → portMove m = true → (afterMove m s).pins.rst = true →
    stepWith p s = .next (applyReset { afterMove m s with script := rest })) ∧
  (∀ (p : Params) (s : State) (r : Register) (rest : List HostMove),
    s.script = .read r :: rest → s.pins.rst = true → s.resetSeen = true → (r = .status → s.code.toNat ≤ 4) →
    stepWith p s = .next (applyReset { afterMove (.read r) s with script := rest })) ∧
  (∀ (p : Params) (s : State) (n l : Nat) (f : Frame) (rest : List HostMove),
    s.script = .decode n l f :: rest → s.pins.rst = true → stepWith p s = .next (applyReset s)) ∧
  (∀ (p : Params) (s : State) (rest : List HostMove), s.script = .reset :: rest →
    stepWith p s = .next (applyReset (withRst false { s with script := rest }))) ∧
  (∀ (p : Params) (s : State) (rest : List HostMove),
    s.script = .setRst false :: rest → s.phase = .idle → s.pins.start = false →
    stepWith p s = .next (withRst false { s with script := rest }))

/-- The state after reset holds the reset values of 10_state.md: PHASE IDLE, STATUS 0x00, record registers 0, no
result. -/
def Obligations.ResetStateHoldsTheResetValues : Prop :=
  State.reset.phase = .idle ∧ statusWord State.reset = 0x00 ∧
  recordOf State.reset = { tempDc := 0, hum := 0, wavg := 0, wgust := 0, rainDmm := 0, battLow := 0 } ∧
  resultOf State.reset = .noResult ∧ State.reset.done = false ∧ State.reset.valid = false ∧ State.reset.code = 0

/-- Before the first reset, whatever PHASE and the registers hold (70_reset_and_hazards.md section 2): a START is refused, at
the port with RST low and as a DECODE transaction; a READ is refused; there is no result; a step that answers either resets
the block or leaves PHASE and every output register as they were, so that no decode commits; and a RESET is taken. The model's
choices: a READ, of which the spec says only that it has no meaning, is refused (notes/assumptions/8); without a START nothing
happens (notes/assumptions/21); RESET is one step (notes/assumptions/5). -/
def Obligations.BeforeTheFirstResetStartAndReadAreRefused : Prop :=
  ∀ (p : Params) (s : State), s.resetSeen = false →
    (s.script = [] → s.pins.rst = false → s.pins.start = true → stepWith p s = .refused .startBeforeReset) ∧
    (∀ (m : HostMove) (rest : List HostMove), s.script = m :: rest → portMove m = true →
      (afterMove m s).pins.rst = false → (afterMove m s).pins.start = true →
      stepWith p s = .refused .startBeforeReset) ∧
    (∀ (n l : Nat) (f : Frame) (rest : List HostMove), s.script = .decode n l f :: rest → s.pins.rst = false →
      stepWith p s = .refused .startBeforeReset) ∧
    (∀ (r : Register) (rest : List HostMove), s.script = .read r :: rest →
      stepWith p s = .refused .readBeforeReset) ∧
    resultOf s = .noResult ∧
    (∀ t, stepWith p s = .next t →
      (t.resetSeen = true ∧ applyReset t = t) ∨
      (t.resetSeen = false ∧ t.phase = s.phase ∧ outputs t = outputs s ∧ resultOf t = .noResult)) ∧
    (∀ rest : List HostMove, s.script = .reset :: rest → ∃ t, stepWith p s = .next t ∧ t.resetSeen = true)

/-- A host move that changes an input while a decode is in progress has no step (92_eei_decisions.md D12;
notes/assumptions/7); driving the values already there is allowed. Before the first reset and while RST is high no decode is in
progress, and the inputs can be driven at will (notes/assumptions/7 and 21). -/
def Obligations.InputChangeWhileBusyIsRefused : Prop :=
  ∀ (p : Params) (s : State) (left n l : Nat) (f : Frame) (rest : List HostMove), s.phase = .busy left →
    (s.resetSeen = true → s.pins.rst = false →
      (saturate16 n ≠ s.pins.rows ∨ saturate16 l ≠ s.pins.bits ∨ f ≠ s.pins.frame) →
      stepWith p { s with script := .drive n l f :: rest } = .refused .inputChangedWhileBusy) ∧
    (saturate16 n = s.pins.rows → saturate16 l = s.pins.bits → f = s.pins.frame →
      stepWith p { s with script := .drive n l f :: rest } = stepWith p { s with script := .wait :: rest }) ∧
    (s.resetSeen = false ∨ s.pins.rst = true →
      stepWith p { s with script := .drive n l f :: rest } =
        stepWith p (withInputs n l f { s with script := .wait :: rest }))

/-- R22 and R23: the host saturates counts too large for their ports, so that no row count other than 1, however large, is
read as 1, and no length other than 80 as 80. -/
def Obligations.CountsSaturateAndNeverWrap : Prop :=
  (∀ n : Nat, (saturate16 n).toNat = min n 0xFFFF) ∧
  (∀ (p : Params) (s : State) (n l : Nat) (f : Frame) (rest : List HostMove),
    s.phase = .idle → s.pins.rst = false → s.resetSeen = true → s.script = .decode n l f :: rest →
    ∃ t, stepWith p s = .next t ∧ (n ≠ 1 → resultOf t = .rejected .multipleOrNoRows) ∧
      (n = 1 → l ≠ 80 → resultOf t = .rejected .wrongLength))

/-! ## Invariants and the writers of the registers -/

/-- The invariant of Safety.lean holds right after reset. -/
def Obligations.InvariantHoldsAtReset : Prop := Inv State.reset

/-- HEADLINE. Every step keeps the invariant, under any CRC primitive and any latencies, from every state that meets it. -/
def Obligations.EveryStepKeepsTheInvariant : Prop :=
  (∀ (p : Params) (s t : State), Inv s → stepWith p s = .next t → Inv t) ∧
  (∀ s t : State, Inv s → step s = .next t → Inv t)

/-- From a state that meets the invariant no step faults. -/
def Obligations.NoStepFaultsFromTheInvariant : Prop :=
  ∀ (p : Params) (s : State) (x : Fault), Inv s → stepWith p s ≠ .fault x

/-- The only writers of the output registers are reset, a START taken in IDLE and the commit of `DecodeFrame` on the inputs
(10_state.md section 3). -/
def Obligations.OnlyResetStartAndCommitWriteOutputs : Prop :=
  ∀ (p : Params) (s t : State), stepWith p s = .next t →
    outputs t = outputs s ∨
    ((t.pins.rst = true ∨ s.script.head? = some .reset) ∧ applyReset t = t) ∨
    (s.phase = .idle ∧ t.pins.start = true ∧ t.phase ≠ .idle ∧ t.done = false ∧ t.valid = s.valid ∧
      t.code = s.code ∧ recordOf t = recordOf s) ∨
    commit (decodeFrameWith p.crc8Fn t.pins.rows t.pins.bits t.pins.frame) t = t

/-- No output register changes between a commit and the next START or reset (20_memory.md section 4, ordering rule
(4)). -/
def Obligations.OutputsAreStableUntilTheNextStart : Prop :=
  ∀ (p : Params) (s t : State), s.phase = .idle → s.pins.rst = false → s.pins.start = false →
    (∀ m, s.script.head? = some m → quietMove m = true) → stepWith p s = .next t →
    outputs t = outputs s ∧ t.phase = .idle ∧ t.pins.rst = false ∧ t.pins.start = false

/-- R40: the hardwired constants; and the steps of the wind and rain registers are the source's decimal factors, exactly. -/
def Obligations.HardwiredConstants : Prop :=
  cRows = 1 ∧ cFrameBits = 80 ∧ cPreamble = 0xFF ∧ cCrcPoly = 0x31 ∧ cCrcInit = 0xFF ∧ cCrcLen = 9 ∧ cCrcPos = 9 ∧
  cTempMask = 0x0FFF ∧ cTempOffset = 400 ∧ cTempDiv = 10 ∧ cWindNum = 34 ∧ cWindDen = 100 ∧
  cKmhNum * 10 = 36 * cKmhDen ∧ cRainNum * 10 = 3 * cRainDen ∧ cBattLow = 1 ∧
  cWindStep * (cWindDen * cKmhDen) = cWindNum * cKmhNum * 1000 ∧ cRainStep * cRainDen = cRainNum * 10

/-! ## The default CRC-8 (the spec's general knowledge, notes/assumptions/1) -/

/-- Vectors Q1 to Q11 of 95_test_vectors.md for the default algorithm. -/
def Obligations.DefaultCrcCheckValues : Prop :=
  crc8 [0x31, 0x32, 0x33, 0x34, 0x35, 0x36, 0x37, 0x38, 0x39] 9 0x31 0xFF = 0xF7 ∧
  (∀ poly init : Byte, crc8 [] 0 poly init = init) ∧
  crc8 [0xFF] 1 0x31 0xFF = 0x00 ∧ crc8 [0x00] 1 0x31 0xFF = 0xAC ∧ crc8 [0x00] 1 0x31 0x00 = 0x00 ∧
  crc8 [0x01] 1 0x31 0x00 = 0x31 ∧ crc8 [0x80] 1 0x31 0x00 = 0x7A ∧
  crc8 [0xFF, 0x00, 0x02, 0x8A, 0x3C, 0x32, 0x32, 0x03, 0x10] 9 0x31 0xFF = 0xAE ∧
  crc8 [0xFF, 0x00, 0x02, 0x8A, 0x3C, 0x32, 0x32, 0x03, 0x10, 0xAE] 10 0x31 0xFF = 0x00 ∧
  crc8 [0x00, 0x02, 0x8A, 0x3C, 0x32, 0x32, 0x03, 0x10] 8 0x31 0x00 = 0xAE ∧
  crc8 [0xFF, 0, 0, 0, 0, 0, 0, 0, 0] 9 0x31 0xFF = 0x00

/-- Zero residue (41_crc8_validator.md section 3; an inference of the spec from the default algorithm, notes/assumptions/1):
running the CRC over the transmitted byte too leaves 0 exactly when that byte is the CRC of the others. -/
def Obligations.ZeroResidueExactlyWhenTheCrcMatches : Prop :=
  (∀ (m : List Byte) (b init : Byte),
    crc8 (m ++ [b]) (m.length + 1) 0x31 init = 0 ↔ crc8 m m.length 0x31 init = b) ∧
  (∀ frame : Frame, crc8 (windowBytes frame) 10 0x31 0xFF = 0 ↔ payloadCrc crc8 frame = byteAt frame 9)

/-- Preamble absorption (41_crc8_validator.md section 3; an inference of the spec from the default algorithm,
notes/assumptions/1). -/
def Obligations.PreambleAbsorbsTheSeed : Prop :=
  ∀ frame : Frame, byteAt frame 0 = 0xFF →
    payloadCrc crc8 frame =
      crc8 [byteAt frame 1, byteAt frame 2, byteAt frame 3, byteAt frame 4, byteAt frame 5, byteAt frame 6,
        byteAt frame 7, byteAt frame 8] 8 0x31 0x00

/-- The default CRC is affine in the message (41_crc8_validator.md section 3; an inference of the spec from the default
algorithm, notes/assumptions/1). -/
def Obligations.DefaultCrcIsAffine : Prop :=
  ∀ (m e : List Byte) (n : Nat) (poly init : Byte), m.length = n → e.length = n →
    crc8 (List.zipWith (· ^^^ ·) m e) n poly init = crc8 m n poly init ^^^ crc8 e n poly 0

/-- Every single-bit error of an accepted frame is rejected: in byte 0 by the preamble gate, elsewhere by the
checksum gate (41_crc8_validator.md section 3; an inference of the spec from the default algorithm, notes/assumptions/1). -/
def Obligations.SingleBitErrorsAreRejected : Prop :=
  ∀ (frame : Frame) (rec : Record), decodeFrameWith crc8 1 80 frame = .accepted rec →
    ∀ k, k < 80 →
      decodeFrameWith crc8 1 80 (frame ^^^ BitVec.twoPow 80 k) =
        .rejected (if 72 ≤ k then .preambleMissing else .checksumMismatch)

/-- Every double-bit error within bytes 1..8 of an accepted frame is rejected with ChecksumMismatch
(41_crc8_validator.md section 3; an inference of the spec from the default algorithm, notes/assumptions/1). -/
def Obligations.DoubleBitErrorsInThePayloadAreRejected : Prop :=
  ∀ (frame : Frame) (rec : Record), decodeFrameWith crc8 1 80 frame = .accepted rec →
    ∀ j k, 8 ≤ j → j < k → k < 72 →
      decodeFrameWith crc8 1 80 (frame ^^^ BitVec.twoPow 80 j ^^^ BitVec.twoPow 80 k) =
        .rejected .checksumMismatch
end

