-- ==== Sys2Proof/Laws/State.lean ====
section
/-! SUPPORT. What each operation of Machine/Ops.lean does to each field of State, one lemma a field. -/

namespace Sys2Proof.Machine

/-! RST = 1 (70_reset_and_hazards.md R240): what it sets, and that the ports, the script and the answers stay. -/

@[simp] theorem applyReset_phase (s : State) : (applyReset s).phase = .idle := rfl
@[simp] theorem applyReset_done (s : State) : (applyReset s).done = false := rfl
@[simp] theorem applyReset_valid (s : State) : (applyReset s).valid = false := rfl
@[simp] theorem applyReset_code (s : State) : (applyReset s).code = 0 := rfl
@[simp] theorem applyReset_tempDc (s : State) : (applyReset s).tempDc = 0 := rfl
@[simp] theorem applyReset_hum (s : State) : (applyReset s).hum = 0 := rfl
@[simp] theorem applyReset_wavg (s : State) : (applyReset s).wavg = 0 := rfl
@[simp] theorem applyReset_wgust (s : State) : (applyReset s).wgust = 0 := rfl
@[simp] theorem applyReset_rainDmm (s : State) : (applyReset s).rainDmm = 0 := rfl
@[simp] theorem applyReset_battLow (s : State) : (applyReset s).battLow = 0 := rfl
@[simp] theorem applyReset_pins (s : State) : (applyReset s).pins = s.pins := rfl
@[simp] theorem applyReset_resetSeen (s : State) : (applyReset s).resetSeen = true := rfl
@[simp] theorem applyReset_latencyIdx (s : State) : (applyReset s).latencyIdx = s.latencyIdx := rfl
@[simp] theorem applyReset_script (s : State) : (applyReset s).script = s.script := rfl
@[simp] theorem applyReset_answers (s : State) : (applyReset s).answers = s.answers := rfl

/-! A START taken (40_frame_decoder.md R100): PHASE and DONE, nothing else. -/

@[simp] theorem takeStart_phase (left : Nat) (s : State) : (takeStart left s).phase = .busy left := rfl
@[simp] theorem takeStart_done (left : Nat) (s : State) : (takeStart left s).done = false := rfl
@[simp] theorem takeStart_valid (left : Nat) (s : State) : (takeStart left s).valid = s.valid := rfl
@[simp] theorem takeStart_code (left : Nat) (s : State) : (takeStart left s).code = s.code := rfl
@[simp] theorem takeStart_tempDc (left : Nat) (s : State) : (takeStart left s).tempDc = s.tempDc := rfl
@[simp] theorem takeStart_hum (left : Nat) (s : State) : (takeStart left s).hum = s.hum := rfl
@[simp] theorem takeStart_wavg (left : Nat) (s : State) : (takeStart left s).wavg = s.wavg := rfl
@[simp] theorem takeStart_wgust (left : Nat) (s : State) : (takeStart left s).wgust = s.wgust := rfl
@[simp] theorem takeStart_rainDmm (left : Nat) (s : State) : (takeStart left s).rainDmm = s.rainDmm := rfl
@[simp] theorem takeStart_battLow (left : Nat) (s : State) : (takeStart left s).battLow = s.battLow := rfl
@[simp] theorem takeStart_pins (left : Nat) (s : State) : (takeStart left s).pins = s.pins := rfl
@[simp] theorem takeStart_resetSeen (left : Nat) (s : State) : (takeStart left s).resetSeen = s.resetSeen := rfl
@[simp] theorem takeStart_latencyIdx (left : Nat) (s : State) : (takeStart left s).latencyIdx = s.latencyIdx := rfl
@[simp] theorem takeStart_script (left : Nat) (s : State) : (takeStart left s).script = s.script := rfl
@[simp] theorem takeStart_answers (left : Nat) (s : State) : (takeStart left s).answers = s.answers := rfl

/-! The commit of an accepted frame (40_frame_decoder.md R101). -/

@[simp] theorem commitAccepted_phase (rec : Record) (s : State) : (commitAccepted rec s).phase = .idle := rfl
@[simp] theorem commitAccepted_done (rec : Record) (s : State) : (commitAccepted rec s).done = true := rfl
@[simp] theorem commitAccepted_valid (rec : Record) (s : State) : (commitAccepted rec s).valid = true := rfl
@[simp] theorem commitAccepted_code (rec : Record) (s : State) : (commitAccepted rec s).code = 0 := rfl
@[simp] theorem commitAccepted_tempDc (rec : Record) (s : State) : (commitAccepted rec s).tempDc = rec.tempDc := rfl
@[simp] theorem commitAccepted_hum (rec : Record) (s : State) : (commitAccepted rec s).hum = rec.hum := rfl
@[simp] theorem commitAccepted_wavg (rec : Record) (s : State) : (commitAccepted rec s).wavg = rec.wavg := rfl
@[simp] theorem commitAccepted_wgust (rec : Record) (s : State) : (commitAccepted rec s).wgust = rec.wgust := rfl
@[simp] theorem commitAccepted_rainDmm (rec : Record) (s : State) : (commitAccepted rec s).rainDmm = rec.rainDmm := rfl
@[simp] theorem commitAccepted_battLow (rec : Record) (s : State) : (commitAccepted rec s).battLow = rec.battLow := rfl
@[simp] theorem commitAccepted_pins (rec : Record) (s : State) : (commitAccepted rec s).pins = s.pins := rfl
@[simp] theorem commitAccepted_resetSeen (rec : Record) (s : State) : (commitAccepted rec s).resetSeen = s.resetSeen := rfl
@[simp] theorem commitAccepted_latencyIdx (rec : Record) (s : State) : (commitAccepted rec s).latencyIdx = s.latencyIdx := rfl
@[simp] theorem commitAccepted_script (rec : Record) (s : State) : (commitAccepted rec s).script = s.script := rfl
@[simp] theorem commitAccepted_answers (rec : Record) (s : State) : (commitAccepted rec s).answers = s.answers := rfl

/-! The commit of a rejection (60_exceptions.md R217). -/

@[simp] theorem commitRejected_phase (r : Reason) (s : State) : (commitRejected r s).phase = .idle := rfl
@[simp] theorem commitRejected_done (r : Reason) (s : State) : (commitRejected r s).done = true := rfl
@[simp] theorem commitRejected_valid (r : Reason) (s : State) : (commitRejected r s).valid = false := rfl
@[simp] theorem commitRejected_code (r : Reason) (s : State) : (commitRejected r s).code = reasonCode r := rfl
@[simp] theorem commitRejected_tempDc (r : Reason) (s : State) : (commitRejected r s).tempDc = 0 := rfl
@[simp] theorem commitRejected_hum (r : Reason) (s : State) : (commitRejected r s).hum = 0 := rfl
@[simp] theorem commitRejected_wavg (r : Reason) (s : State) : (commitRejected r s).wavg = 0 := rfl
@[simp] theorem commitRejected_wgust (r : Reason) (s : State) : (commitRejected r s).wgust = 0 := rfl
@[simp] theorem commitRejected_rainDmm (r : Reason) (s : State) : (commitRejected r s).rainDmm = 0 := rfl
@[simp] theorem commitRejected_battLow (r : Reason) (s : State) : (commitRejected r s).battLow = 0 := rfl
@[simp] theorem commitRejected_pins (r : Reason) (s : State) : (commitRejected r s).pins = s.pins := rfl
@[simp] theorem commitRejected_resetSeen (r : Reason) (s : State) : (commitRejected r s).resetSeen = s.resetSeen := rfl
@[simp] theorem commitRejected_latencyIdx (r : Reason) (s : State) : (commitRejected r s).latencyIdx = s.latencyIdx := rfl
@[simp] theorem commitRejected_script (r : Reason) (s : State) : (commitRejected r s).script = s.script := rfl
@[simp] theorem commitRejected_answers (r : Reason) (s : State) : (commitRejected r s).answers = s.answers := rfl

/-! Driving the inputs changes only the pins. -/

@[simp] theorem withInputs_phase (n l : Nat) (f : Frame) (s : State) : (withInputs n l f s).phase = s.phase := rfl
@[simp] theorem withInputs_done (n l : Nat) (f : Frame) (s : State) : (withInputs n l f s).done = s.done := rfl
@[simp] theorem withInputs_valid (n l : Nat) (f : Frame) (s : State) : (withInputs n l f s).valid = s.valid := rfl
@[simp] theorem withInputs_code (n l : Nat) (f : Frame) (s : State) : (withInputs n l f s).code = s.code := rfl
@[simp] theorem withInputs_tempDc (n l : Nat) (f : Frame) (s : State) : (withInputs n l f s).tempDc = s.tempDc := rfl
@[simp] theorem withInputs_hum (n l : Nat) (f : Frame) (s : State) : (withInputs n l f s).hum = s.hum := rfl
@[simp] theorem withInputs_wavg (n l : Nat) (f : Frame) (s : State) : (withInputs n l f s).wavg = s.wavg := rfl
@[simp] theorem withInputs_wgust (n l : Nat) (f : Frame) (s : State) : (withInputs n l f s).wgust = s.wgust := rfl
@[simp] theorem withInputs_rainDmm (n l : Nat) (f : Frame) (s : State) : (withInputs n l f s).rainDmm = s.rainDmm := rfl
@[simp] theorem withInputs_battLow (n l : Nat) (f : Frame) (s : State) : (withInputs n l f s).battLow = s.battLow := rfl
@[simp] theorem withInputs_pins (n l : Nat) (f : Frame) (s : State) : (withInputs n l f s).pins = drivenPins n l f s.pins := rfl
@[simp] theorem withInputs_resetSeen (n l : Nat) (f : Frame) (s : State) : (withInputs n l f s).resetSeen = s.resetSeen := rfl
@[simp] theorem withInputs_latencyIdx (n l : Nat) (f : Frame) (s : State) : (withInputs n l f s).latencyIdx = s.latencyIdx := rfl
@[simp] theorem withInputs_script (n l : Nat) (f : Frame) (s : State) : (withInputs n l f s).script = s.script := rfl
@[simp] theorem withInputs_answers (n l : Nat) (f : Frame) (s : State) : (withInputs n l f s).answers = s.answers := rfl

/-! Driving START changes only the pins. -/

@[simp] theorem withStart_phase (v : Bool) (s : State) : (withStart v s).phase = s.phase := rfl
@[simp] theorem withStart_done (v : Bool) (s : State) : (withStart v s).done = s.done := rfl
@[simp] theorem withStart_valid (v : Bool) (s : State) : (withStart v s).valid = s.valid := rfl
@[simp] theorem withStart_code (v : Bool) (s : State) : (withStart v s).code = s.code := rfl
@[simp] theorem withStart_tempDc (v : Bool) (s : State) : (withStart v s).tempDc = s.tempDc := rfl
@[simp] theorem withStart_hum (v : Bool) (s : State) : (withStart v s).hum = s.hum := rfl
@[simp] theorem withStart_wavg (v : Bool) (s : State) : (withStart v s).wavg = s.wavg := rfl
@[simp] theorem withStart_wgust (v : Bool) (s : State) : (withStart v s).wgust = s.wgust := rfl
@[simp] theorem withStart_rainDmm (v : Bool) (s : State) : (withStart v s).rainDmm = s.rainDmm := rfl
@[simp] theorem withStart_battLow (v : Bool) (s : State) : (withStart v s).battLow = s.battLow := rfl
@[simp] theorem withStart_pins (v : Bool) (s : State) : (withStart v s).pins = { s.pins with start := v } := rfl
@[simp] theorem withStart_resetSeen (v : Bool) (s : State) : (withStart v s).resetSeen = s.resetSeen := rfl
@[simp] theorem withStart_latencyIdx (v : Bool) (s : State) : (withStart v s).latencyIdx = s.latencyIdx := rfl
@[simp] theorem withStart_script (v : Bool) (s : State) : (withStart v s).script = s.script := rfl
@[simp] theorem withStart_answers (v : Bool) (s : State) : (withStart v s).answers = s.answers := rfl

/-! Driving RST changes only the pins. -/

@[simp] theorem withRst_phase (v : Bool) (s : State) : (withRst v s).phase = s.phase := rfl
@[simp] theorem withRst_done (v : Bool) (s : State) : (withRst v s).done = s.done := rfl
@[simp] theorem withRst_valid (v : Bool) (s : State) : (withRst v s).valid = s.valid := rfl
@[simp] theorem withRst_code (v : Bool) (s : State) : (withRst v s).code = s.code := rfl
@[simp] theorem withRst_tempDc (v : Bool) (s : State) : (withRst v s).tempDc = s.tempDc := rfl
@[simp] theorem withRst_hum (v : Bool) (s : State) : (withRst v s).hum = s.hum := rfl
@[simp] theorem withRst_wavg (v : Bool) (s : State) : (withRst v s).wavg = s.wavg := rfl
@[simp] theorem withRst_wgust (v : Bool) (s : State) : (withRst v s).wgust = s.wgust := rfl
@[simp] theorem withRst_rainDmm (v : Bool) (s : State) : (withRst v s).rainDmm = s.rainDmm := rfl
@[simp] theorem withRst_battLow (v : Bool) (s : State) : (withRst v s).battLow = s.battLow := rfl
@[simp] theorem withRst_pins (v : Bool) (s : State) : (withRst v s).pins = { s.pins with rst := v } := rfl
@[simp] theorem withRst_resetSeen (v : Bool) (s : State) : (withRst v s).resetSeen = s.resetSeen := rfl
@[simp] theorem withRst_latencyIdx (v : Bool) (s : State) : (withRst v s).latencyIdx = s.latencyIdx := rfl
@[simp] theorem withRst_script (v : Bool) (s : State) : (withRst v s).script = s.script := rfl
@[simp] theorem withRst_answers (v : Bool) (s : State) : (withRst v s).answers = s.answers := rfl

/-! The pins of a state whose inputs are driven: RST and START keep their levels. -/

@[simp] theorem drivenPins_rst (n l : Nat) (f : Frame) (p : Pins) : (drivenPins n l f p).rst = p.rst := rfl
@[simp] theorem drivenPins_start (n l : Nat) (f : Frame) (p : Pins) : (drivenPins n l f p).start = p.start := rfl
@[simp] theorem drivenPins_rows (n l : Nat) (f : Frame) (p : Pins) : (drivenPins n l f p).rows = saturate16 n := rfl
@[simp] theorem drivenPins_bits (n l : Nat) (f : Frame) (p : Pins) : (drivenPins n l f p).bits = saturate16 l := rfl
@[simp] theorem drivenPins_frame (n l : Nat) (f : Frame) (p : Pins) : (drivenPins n l f p).frame = f := rfl

end Sys2Proof.Machine
end

