-- ==== Sys2Proof/Laws/Ops.lean ====
section
/-! SUPPORT. For each shared operation, everything it can do, said once; and the outcome of each class. -/

namespace Sys2Proof.Machine

/-! ## Going on -/

@[simp] theorem andThen_next (s : State) (k : State → Host.Outcome State Fault Refusal) :
    andThen (.next s) k = k s := rfl

@[simp] theorem andThen_fault (f : Fault) (k : State → Host.Outcome State Fault Refusal) :
    andThen (.fault f) k = .fault f := rfl

@[simp] theorem andThen_refused (r : Refusal) (k : State → Host.Outcome State Fault Refusal) :
    andThen (.refused r) k = .refused r := rfl

/-- A composed step has a next state only through a next state of its first part. -/
theorem andThen_eq_next {o : Host.Outcome State Fault Refusal} {k : State → Host.Outcome State Fault Refusal}
    {t : State} (h : andThen o k = .next t) : ∃ s, o = .next s ∧ k s = .next t := by
  cases o with
  | next s => exact ⟨s, rfl, h⟩
  | fault f => simp at h
  | refused r => simp at h

/-- A composed step faults only where one of its parts does. -/
theorem andThen_eq_fault {o : Host.Outcome State Fault Refusal} {k : State → Host.Outcome State Fault Refusal}
    {f : Fault} (h : andThen o k = .fault f) : o = .fault f ∨ ∃ s, o = .next s ∧ k s = .fault f := by
  cases o with
  | next s => exact .inr ⟨s, rfl, h⟩
  | fault g => exact .inl h
  | refused r => simp at h

/-! ## The ports -/

/-- Driving a count a port can carry puts that count on it. -/
theorem saturate16_toNat_of_le {n : Nat} (h : n ≤ 0xFFFF) : (saturate16 n).toNat = n := by
  simp only [saturate16, BitVec.toNat_ofNat]; omega

/-- A 16-bit value driven as a count is itself. -/
@[simp] theorem saturate16_of_toNat (x : BitVec 16) : saturate16 x.toNat = x := by
  apply BitVec.eq_of_toNat_eq
  exact saturate16_toNat_of_le (by have := x.isLt; omega)

/-- Driving the inputs answers the driven state, and only with no decode in progress or when nothing changes. -/
theorem driveInputs_eq_next {n l : Nat} {f : Frame} {s t : State} (h : driveInputs n l f s = .next t) :
    t = withInputs n l f s ∧ (decodeInProgress s = false ∨ drivenPins n l f s.pins = s.pins) := by
  simp only [driveInputs] at h
  split at h
  · simp at h
  · rename_i hc
    simp only [Host.Outcome.next.injEq] at h
    refine ⟨h.symm, ?_⟩
    simp only [Bool.and_eq_true, bne_iff_ne, ne_eq, not_and, Decidable.not_not] at hc
    cases hb : decodeInProgress s
    · exact .inl rfl
    · exact .inr (hc hb)

/-- With no decode in progress the inputs can be driven at will. -/
theorem driveInputs_of_not_inProgress {n l : Nat} {f : Frame} {s : State} (h : decodeInProgress s = false) :
    driveInputs n l f s = .next (withInputs n l f s) := by
  simp [driveInputs, h]

/-- Driving the values that the inputs already have is allowed in every state. -/
theorem driveInputs_of_same {n l : Nat} {f : Frame} {s : State} (h : drivenPins n l f s.pins = s.pins) :
    driveInputs n l f s = .next (withInputs n l f s) := by
  simp [driveInputs, h]

/-- Driving the inputs never faults. -/
theorem driveInputs_ne_fault {n l : Nat} {f : Frame} {s : State} {x : Fault} : driveInputs n l f s ≠ .fault x := by
  simp only [driveInputs]; split <;> simp

/-! ## Reading -/

/-- A READ answers the state with one answer more, and only after the first reset. -/
theorem readRegister_eq_next {r : Register} {s t : State} (h : readRegister r s = .next t) :
    t = { s with answers := s.answers ++ [registerValue r s] } ∧ s.resetSeen = true := by
  simp only [readRegister] at h
  split at h
  · simp at h
  · rename_i hr
    split at h
    · simp at h
    · exact ⟨by simpa using h.symm, by simpa using hr⟩

/-- A READ after the first reset answers, but for a STATUS with a reserved CODE. -/
theorem readRegister_of_readable {r : Register} {s : State} (h : s.resetSeen = true)
    (hc : r = .status → s.code.toNat ≤ 4) :
    readRegister r s = .next { s with answers := s.answers ++ [registerValue r s] } := by
  have hn : ¬ (r = .status ∧ 5 ≤ s.code.toNat) := fun ⟨a, b⟩ => by have := hc a; omega
  simp [readRegister, h, hn]

/-- A READ faults only on a reserved CODE of a block that has been reset. -/
theorem readRegister_eq_fault {r : Register} {s : State} {x : Fault} (h : readRegister r s = .fault x) :
    r = .status ∧ 5 ≤ s.code.toNat ∧ s.resetSeen = true := by
  simp only [readRegister] at h
  split at h
  · simp at h
  · rename_i hr
    split at h
    · rename_i hc; exact ⟨hc.1, hc.2, by simpa using hr⟩
    · simp at h

/-! ## The classes and their outcomes -/

/-- The outcome of a class: the "outcome" column of spec/opcode_table.json. -/
def classVerdict (i : Instr) : Verdict :=
  match i with
  | .rejRows _ _ _ => .rejected .multipleOrNoRows
  | .rejLen _ _ => .rejected .wrongLength
  | .rejPre _ _ => .rejected .preambleMissing
  | .rejCrc _ => .rejected .checksumMismatch
  | .accept f => .accepted (assemble f.t f.h f.a f.g f.r f.b)

/-- Every class answers the commit of its outcome, from every state. -/
theorem exec_eq_commit (i : Instr) (s : State) : exec i s = .next (commit (classVerdict i) s) := by
  cases i <;> rfl

/-- A commit leaves the host's side and the model's own counters as they were. -/
@[simp] theorem commit_pins (v : Verdict) (s : State) : (commit v s).pins = s.pins := by cases v <;> rfl
@[simp] theorem commit_phase (v : Verdict) (s : State) : (commit v s).phase = .idle := by cases v <;> rfl
@[simp] theorem commit_done (v : Verdict) (s : State) : (commit v s).done = true := by cases v <;> rfl
@[simp] theorem commit_resetSeen (v : Verdict) (s : State) : (commit v s).resetSeen = s.resetSeen := by cases v <;> rfl
@[simp] theorem commit_latencyIdx (v : Verdict) (s : State) : (commit v s).latencyIdx = s.latencyIdx := by
  cases v <;> rfl
@[simp] theorem commit_script (v : Verdict) (s : State) : (commit v s).script = s.script := by cases v <;> rfl
@[simp] theorem commit_answers (v : Verdict) (s : State) : (commit v s).answers = s.answers := by cases v <;> rfl

/-- A commit overwrites all that a START wrote (40_frame_decoder.md R110). -/
@[simp] theorem commit_takeStart (v : Verdict) (left : Nat) (s : State) :
    commit v (takeStart left s) = commit v s := by cases v <;> rfl

/-- Running the decode on the ports answers the commit of the class of the word there. -/
theorem runDecode_eq_commit (p : Params) (s : State) :
    runDecode p s = .next (commit (classVerdict (classifyWith p.crc8Fn (inputWord s))) s) :=
  exec_eq_commit _ _

end Sys2Proof.Machine
end

