-- ==== Sys2Proof/Laws/PerInstr.lean ====
section
/-! SUPPORT. Families of statements made once for each constructor of Instr. -/

/-! ## TableMatch: the encoder agrees with "mask", "match" and "match_sense" of spec/opcode_table.json -/

/-- The row of spec/opcode_table.json for the class of `i`, as a condition on a word. -/
def Sys2Proof.Laws.TableMatch.row (crc : Sys2Proof.Crc8Fn) (i : Sys2Proof.Instr) (w : Sys2Proof.TxWord) : Prop :=
  match i with
  | .rejRows _ _ _ => w &&& 0xFFFF000000000000000000000000 ≠ 0x0001000000000000000000000000
  | .rejLen _ _ =>
    w &&& 0xFFFF000000000000000000000000 = 0x0001000000000000000000000000 ∧ w.extractLsb' 80 16 ≠ 0x0050
  | .rejPre _ _ =>
    w &&& 0xFFFFFFFF00000000000000000000 = 0x0001005000000000000000000000 ∧ w.extractLsb' 72 8 ≠ 0xFF
  | .rejCrc _ =>
    w &&& 0xFFFFFFFFFF000000000000000000 = 0x00010050FF000000000000000000 ∧
      w.extractLsb' 0 8 ≠ Sys2Proof.Machine.crcCalc crc (w.extractLsb' 0 80)
  | .accept _ =>
    w &&& 0xFFFFFFFFFF000000000000000000 = 0x00010050FF000000000000000000 ∧
      w.extractLsb' 0 8 = Sys2Proof.Machine.crcCalc crc (w.extractLsb' 0 80)

/-- The word of a well-formed instruction meets the condition of its own row of the table, under any CRC primitive. -/
def Sys2Proof.Laws.TableMatch.Statement (i : Sys2Proof.Instr) : Prop :=
  ∀ crc, i.wellFormedWith crc = true → Sys2Proof.Laws.TableMatch.row crc i (Sys2Proof.encode i)

namespace Sys2Proof.Laws.TableMatch

/-- A mask over the leading part of a two-part word keeps that part and clears the other. -/
theorem mask_append {m n : Nat} (x : BitVec m) (y : BitVec n) :
    (x ++ y) &&& (BitVec.allOnes m ++ (0 : BitVec n)) = x ++ (0 : BitVec n) := by
  rw [BitVec.and_append]; simp

/-- The mask of REJ_ROWS and REJ_LEN keeps the row count. -/
theorem rows_mask (rows bits : BitVec 16) (frame : Frame) :
    txWord rows bits frame &&& 0xFFFF000000000000000000000000 = rows ++ (0 : BitVec 96) := by
  have h : txWord rows bits frame = rows ++ (bits ++ frame) := by
    simp only [txWord]; exact BitVec.append_assoc
  rw [h]
  exact mask_append rows (bits ++ frame)

/-- The mask of REJ_PRE keeps the row count and the length. -/
theorem rows_bits_mask (rows bits : BitVec 16) (frame : Frame) :
    txWord rows bits frame &&& 0xFFFFFFFF00000000000000000000 = (rows ++ bits) ++ (0 : BitVec 80) :=
  mask_append (rows ++ bits) frame

/-- A frame as its first byte and the other nine. -/
theorem frame_split (frame : Frame) : frame = Machine.byteAt frame 0 ++ frame.extractLsb' 0 72 := by
  apply BitVec.eq_of_getLsbD_eq
  intro i hi
  simp only [BitVec.getLsbD_append, Machine.byteAt, BitVec.getLsbD_extractLsb']
  by_cases h : i < 72
  · simp [h]
  · have h1 : 72 + (i - 72) = i := by omega
    have h2 : i - 72 < 8 := by omega
    simp [h, h1, h2]

/-- The mask of REJ_CRC and ACCEPT keeps the row count, the length and byte 0. -/
theorem preamble_mask (rows bits : BitVec 16) (frame : Frame) :
    txWord rows bits frame &&& 0xFFFFFFFFFF000000000000000000 =
      (rows ++ bits ++ Machine.byteAt frame 0) ++ (0 : BitVec 72) := by
  have h : txWord rows bits frame = (rows ++ bits ++ Machine.byteAt frame 0) ++ frame.extractLsb' 0 72 := by
    have h1 : (rows ++ bits) ++ (Machine.byteAt frame 0 ++ frame.extractLsb' 0 72) =
        (rows ++ bits ++ Machine.byteAt frame 0) ++ frame.extractLsb' 0 72 := BitVec.append_assoc.symm
    rw [← h1, ← frame_split]; rfl
  rw [h]
  exact mask_append _ _

/-- The frame of a word is its low 80 bits. -/
theorem frame_of_txWord (rows bits : BitVec 16) (frame : Frame) :
    (txWord rows bits frame).extractLsb' 0 80 = frame := by
  apply BitVec.eq_of_getLsbD_eq
  intro i hi
  simp only [txWord, BitVec.getLsbD_extractLsb', BitVec.getLsbD_append]
  simp [hi]

/-- The low byte of a word is the frame's last. -/
theorem low_byte_of_txWord (rows bits : BitVec 16) (frame : Frame) :
    (txWord rows bits frame).extractLsb' 0 8 = frame.extractLsb' 0 8 := by
  apply BitVec.eq_of_getLsbD_eq
  intro i hi
  have h : i < 80 := by omega
  simp only [txWord, BitVec.getLsbD_extractLsb', BitVec.getLsbD_append]
  simp [hi, h]

/-- The length of a word's row. -/
theorem bits_of_txWord (rows bits : BitVec 16) (frame : Frame) :
    (txWord rows bits frame).extractLsb' 80 16 = bits := by
  apply BitVec.eq_of_getLsbD_eq
  intro i hi
  simp only [txWord, BitVec.getLsbD_extractLsb', BitVec.getLsbD_append]
  simp [hi]

/-- Byte 0 of a word's frame. -/
theorem byte0_of_txWord (rows bits : BitVec 16) (frame : Frame) :
    (txWord rows bits frame).extractLsb' 72 8 = Machine.byteAt frame 0 := by
  apply BitVec.eq_of_getLsbD_eq
  intro i hi
  have h : 72 + i < 80 := by omega
  simp only [txWord, Machine.byteAt, BitVec.getLsbD_extractLsb', BitVec.getLsbD_append]
  simp [hi, h]

/-- Byte 0 and the rest of a frame given as the two. -/
theorem byte0_of_append (byte0 : BitVec 8) (rest : BitVec 72) : Machine.byteAt (byte0 ++ rest) 0 = byte0 := by
  apply BitVec.eq_of_getLsbD_eq
  intro i hi
  simp only [Machine.byteAt, BitVec.getLsbD_extractLsb', BitVec.getLsbD_append]
  simp [hi]

/-- Byte 0 of the frame of a set of fields is the preamble. -/
theorem byte0_of_frameOf (f : FrameFields) : Machine.byteAt (Machine.frameOf f) 0 = Machine.cPreamble := by
  apply BitVec.eq_of_getLsbD_eq
  intro i hi
  simp only [Machine.byteAt, Machine.frameOf, BitVec.getLsbD_extractLsb', BitVec.getLsbD_append]
  have e : 72 + i - 8 - 12 - 4 - 8 - 8 - 8 - 12 - 4 - 8 = i := by omega
  simp [hi, e, show ¬ 72 + i < 8 by omega, show ¬ 72 + i - 8 < 12 by omega, show ¬ 72 + i - 8 - 12 < 4 by omega,
    show ¬ 72 + i - 8 - 12 - 4 < 8 by omega, show ¬ 72 + i - 8 - 12 - 4 - 8 < 8 by omega,
    show ¬ 72 + i - 8 - 12 - 4 - 8 - 8 < 8 by omega, show ¬ 72 + i - 8 - 12 - 4 - 8 - 8 - 8 < 12 by omega,
    show ¬ 72 + i - 8 - 12 - 4 - 8 - 8 - 8 - 12 < 4 by omega,
    show ¬ 72 + i - 8 - 12 - 4 - 8 - 8 - 8 - 12 - 4 < 8 by omega]

/-- The last byte of the frame of a set of fields is `c`. -/
theorem low_byte_of_frameOf (f : FrameFields) : (Machine.frameOf f).extractLsb' 0 8 = f.c := by
  apply BitVec.eq_of_getLsbD_eq
  intro i hi
  simp only [Machine.frameOf, BitVec.getLsbD_extractLsb', BitVec.getLsbD_append]
  simp [hi]

theorem rejRows (rows bits : BitVec 16) (frame : Frame) : Statement (.rejRows rows bits frame) := by
  intro crc h
  simp only [Instr.wellFormedWith, bne_iff_ne] at h
  simp only [row, encode, rows_mask]
  intro e
  apply h
  have := congrArg (BitVec.extractLsb' 96 16) e
  rw [BitVec.extractLsb'_append_eq_of_le (by decide)] at this
  simpa [Machine.cRows] using this

theorem rejLen (bits : BitVec 16) (frame : Frame) : Statement (.rejLen bits frame) := by
  intro crc h
  simp only [Instr.wellFormedWith, bne_iff_ne] at h
  exact ⟨by simp only [encode, rows_mask]; decide, by simp only [encode, bits_of_txWord]; exact h⟩

theorem rejPre (byte0 : BitVec 8) (rest : BitVec 72) : Statement (.rejPre byte0 rest) := by
  intro crc h
  simp only [Instr.wellFormedWith, bne_iff_ne] at h
  exact ⟨by simp only [encode, rows_bits_mask]; decide,
    by simp only [encode, byte0_of_txWord, byte0_of_append]; exact h⟩

theorem rejCrc (f : FrameFields) : Statement (.rejCrc f) := by
  intro crc h
  simp only [Instr.wellFormedWith, bne_iff_ne] at h
  exact ⟨by simp only [encode, preamble_mask, byte0_of_frameOf]; decide,
    by simpa only [encode, low_byte_of_txWord, low_byte_of_frameOf, frame_of_txWord] using h⟩

theorem accept (f : FrameFields) : Statement (.accept f) := by
  intro crc h
  simp only [Instr.wellFormedWith, beq_iff_eq] at h
  exact ⟨by simp only [encode, preamble_mask, byte0_of_frameOf]; decide,
    by simpa only [encode, low_byte_of_txWord, low_byte_of_frameOf, frame_of_txWord] using h⟩

end Sys2Proof.Laws.TableMatch
end

