-- ==== Sys2Proof/Laws/Step.lean ====
section
/-! SUPPORT. What one step can do, said once: the block's cycle, then the host's move and the cycle together. -/

namespace Sys2Proof.Machine

/-- What one cycle of a block that has been reset can do, RST low. -/
theorem runningCycle_cases {p : Params} {s t : State} (h : runningCycle p s = .next t) :
    (s.phase = .idle ∧ s.pins.start = false ∧ t = s) ∨
    (s.phase = .idle ∧ s.pins.start = true ∧ ∃ left, p.latency s.latencyIdx = left + 1 ∧
      t = takeStart (left + 1) { s with latencyIdx := s.latencyIdx + 1 }) ∨
    (s.phase = .idle ∧ s.pins.start = true ∧ p.latency s.latencyIdx = 0 ∧
      t = commit (classVerdict (classifyWith p.crc8Fn (inputWord s))) { s with latencyIdx := s.latencyIdx + 1 }) ∨
    ((∃ left, s.phase = .busy left ∧ left ≤ 1) ∧
      t = commit (classVerdict (classifyWith p.crc8Fn (inputWord s))) s) ∨
    (∃ left, s.phase = .busy (left + 2) ∧ t = { s with phase := .busy (left + 1) }) := by
  simp only [runningCycle] at h
  split at h
  · rename_i hp
    split at h
    · rename_i hs
      simp only [startCycle] at h
      split at h
      · rename_i hl
        rw [runDecode_eq_commit] at h
        exact .inr (.inr (.inl ⟨hp, hs, hl, by simpa [inputWord] using h.symm⟩))
      · rename_i left hl
        rw [hl] at h
        exact .inr (.inl ⟨hp, hs, left, hl, by simpa using h.symm⟩)
    · rename_i hs
      exact .inl ⟨hp, by simpa using hs, by simpa using h.symm⟩
  · rename_i hp
    rw [runDecode_eq_commit] at h
    exact .inr (.inr (.inr (.inl ⟨⟨0, hp, by omega⟩, by simpa using h.symm⟩)))
  · rename_i hp
    rw [runDecode_eq_commit] at h
    exact .inr (.inr (.inr (.inl ⟨⟨1, hp, by omega⟩, by simpa using h.symm⟩)))
  · rename_i left hp
    exact .inr (.inr (.inr (.inr ⟨left, hp, by simpa using h.symm⟩)))

/-- What one cycle of the block can do: reset it, let a block not yet reset stand, or run. -/
theorem blockCycle_cases {p : Params} {s t : State} (h : blockCycle p s = .next t) :
    (s.pins.rst = true ∧ t = applyReset s) ∨
    (s.pins.rst = false ∧ s.resetSeen = false ∧ s.pins.start = false ∧ t = s) ∨
    (s.pins.rst = false ∧ s.resetSeen = true ∧ runningCycle p s = .next t) := by
  simp only [blockCycle, powerUpCycle] at h
  split at h
  · rename_i hr
    exact .inl ⟨hr, by simpa using h.symm⟩
  · rename_i hr
    have hr' : s.pins.rst = false := by simpa using hr
    split at h
    · rename_i hz
      exact .inr (.inr ⟨hr', hz, h⟩)
    · rename_i hz
      split at h
      · simp at h
      · rename_i hs
        exact .inr (.inl ⟨hr', by simpa using hz, by simpa using hs, by simpa using h.symm⟩)

/-- With RST high a cycle resets the block (70_reset_and_hazards.md R240). -/
theorem blockCycle_of_rst {p : Params} {s : State} (h : s.pins.rst = true) : blockCycle p s = .next (applyReset s) := by
  simp [blockCycle, h]

/-- A block that has been reset runs while RST is low. -/
theorem blockCycle_of_running {p : Params} {s : State} (h : s.pins.rst = false) (hz : s.resetSeen = true) :
    blockCycle p s = runningCycle p s := by
  simp [blockCycle, h, hz]

/-- Before the first reset a START is refused, whatever PHASE holds (70_reset_and_hazards.md R243). -/
theorem blockCycle_of_powerUp_start {p : Params} {s : State} (h : s.pins.rst = false) (hz : s.resetSeen = false)
    (hs : s.pins.start = true) : blockCycle p s = .refused .startBeforeReset := by
  simp [blockCycle, powerUpCycle, h, hz, hs]

/-- The block's cycle never faults. -/
theorem blockCycle_ne_fault {p : Params} {s : State} {x : Fault} : blockCycle p s ≠ .fault x := by
  simp only [blockCycle, powerUpCycle, runningCycle, startCycle, runDecode_eq_commit]
  repeat' split
  all_goals simp

/-- The block's own registers are the same in two states: they differ at most in the pins, the script and the answers. -/
def SameBlock (s t : State) : Prop :=
  t = { s with pins := t.pins, script := t.script, answers := t.answers }

/-- What one step can do: the RESET transaction, the DECODE transaction, or one cycle of the block from a state that the
host's move has made of this one without touching the block's registers. -/
theorem stepWith_cases {p : Params} {s t : State} (h : stepWith p s = .next t) :
    (∃ rest, s.script = .reset :: rest ∧ t = applyReset (withRst false { s with script := rest })) ∨
    (∃ n l f rest, s.script = .decode n l f :: rest ∧ readyForDecode s = true ∧ s.resetSeen = true ∧
      t = commit (classVerdict (classifyWith p.crc8Fn (txWord (saturate16 n) (saturate16 l) f)))
        (withStart false (withInputs n l f { s with script := rest }))) ∨
    (∃ s', SameBlock s s' ∧ blockCycle p s' = .next t) := by
  simp only [stepWith] at h
  split at h
  · exact .inr (.inr ⟨s, rfl, h⟩)
  · rename_i rest hs
    exact .inl ⟨rest, hs, by simpa using h.symm⟩
  · rename_i n l f rest hs
    split at h
    · rename_i hready
      simp only [decodeTransaction] at h
      split at h
      · rename_i hz
        rw [runDecode_eq_commit] at h
        exact .inr (.inl ⟨n, l, f, rest, hs, hready, hz, by simpa [inputWord] using h.symm⟩)
      · simp at h
    · exact .inr (.inr ⟨s, rfl, h⟩)
  · rename_i r rest hs
    obtain ⟨s', h1, h2⟩ := andThen_eq_next h
    obtain ⟨rfl, -⟩ := readRegister_eq_next h1
    refine .inr (.inr ⟨_, ?_, h2⟩); rfl
  · rename_i n l f rest hs
    obtain ⟨s', h1, h2⟩ := andThen_eq_next h
    obtain ⟨rfl, -⟩ := driveInputs_eq_next h1
    refine .inr (.inr ⟨_, ?_, h2⟩); rfl
  · refine .inr (.inr ⟨_, ?_, h⟩); rfl
  · refine .inr (.inr ⟨_, ?_, h⟩); rfl
  · refine .inr (.inr ⟨_, ?_, h⟩); rfl

/-- A move at a port is the ports as it leaves them and then one cycle; driving the inputs is so while no decode is in
progress. -/
theorem stepWith_of_portMove {p : Params} {s : State} {m : HostMove} {rest : List HostMove}
    (hs : s.script = m :: rest) (hm : portMove m = true)
    (hd : ∀ n l f, m = .drive n l f → decodeInProgress s = false) :
    stepWith p s = blockCycle p { afterMove m s with script := rest } := by
  cases m with
  | reset => simp [portMove] at hm
  | decode n l f => simp [portMove] at hm
  | read r => simp [portMove] at hm
  | drive n l f =>
    have : decodeInProgress { s with script := rest } = false := hd n l f rfl
    simp only [stepWith, hs, driveInputs_of_not_inProgress this, andThen_next]
    rfl
  | setStart v => simp only [stepWith, hs]; rfl
  | setRst v => simp only [stepWith, hs]; rfl
  | wait => simp only [stepWith, hs]; rfl

/-- With a host that keeps its duty to a decode, a step is the ports as the host's move leaves them and then one cycle. -/
theorem stepWith_of_keepsDecode {p : Params} {s : State} (hz : s.resetSeen = true) (hc : s.code.toNat ≤ 4)
    (hk : ∀ m, s.script.head? = some m → keepsDecode s.pins m = true) :
    stepWith p s = blockCycle p { afterHead s with script := s.script.tail } := by
  match hs : s.script with
  | [] => simp only [stepWith, hs, afterHead, List.tail_nil]; rw [← hs]
  | m :: rest =>
    have hm := hk m (by simp [hs])
    cases m with
    | reset => simp [keepsDecode] at hm
    | decode n l f => simp [keepsDecode] at hm
    | read r =>
      have : registerValue r { s with script := rest } = registerValue r s := by cases r <;> rfl
      simp only [stepWith, hs, readRegister_of_readable (s := { s with script := rest }) hz (fun _ => hc),
        andThen_next, this]
      simp [afterHead, hs, afterMove]
    | drive n l f =>
      simp only [keepsDecode, Bool.and_eq_true, beq_iff_eq] at hm
      have : drivenPins n l f s.pins = s.pins := by simp [drivenPins, hm]
      simp only [stepWith, hs, driveInputs_of_same (s := { s with script := rest }) this, andThen_next]
      simp [afterHead, hs, afterMove, withInputs]
    | setStart v => simp only [stepWith, hs]; simp [afterHead, hs, afterMove, withStart]
    | setRst v => simp only [stepWith, hs]; simp [afterHead, hs, afterMove, withRst]
    | wait => simp only [stepWith, hs]; simp [afterHead, hs, afterMove]

/-- A host that keeps its duty to a decode moves at most START, and hears answers. -/
theorem afterHead_of_keepsDecode {s : State} (hr : s.pins.rst = false)
    (hk : ∀ m, s.script.head? = some m → keepsDecode s.pins m = true) :
    afterHead s = { s with
      pins := { s.pins with start := (afterHead s).pins.start }, answers := (afterHead s).answers } := by
  match hs : s.script with
  | [] => simp only [afterHead, hs]; rw [← hs]
  | m :: rest =>
    have hm := hk m (by simp [hs])
    cases m with
    | drive n l f =>
      simp only [keepsDecode, Bool.and_eq_true, beq_iff_eq] at hm
      simp [afterHead, hs, afterMove, withInputs, drivenPins, hm]
    | setRst v =>
      have : v = false := by simpa [keepsDecode] using hm
      simp [afterHead, hs, afterMove, withRst, this, ← hr]
    | reset => simp [keepsDecode] at hm
    | decode n l f => simp [keepsDecode] at hm
    | read r => simp [afterHead, hs, afterMove]
    | setStart v => simp [afterHead, hs, afterMove, withStart]
    | wait => simp only [afterHead, hs, afterMove]; rw [← hs]

/-- A step faults only through a READ of STATUS that finds a reserved CODE (60_exceptions.md R215). -/
theorem stepWith_eq_fault {p : Params} {s : State} {x : Fault} (h : stepWith p s = .fault x) :
    5 ≤ s.code.toNat ∧ s.resetSeen = true := by
  simp only [stepWith] at h
  split at h
  · exact absurd h blockCycle_ne_fault
  · simp at h
  · split at h
    · simp only [decodeTransaction] at h
      split at h
      · rw [runDecode_eq_commit] at h; simp at h
      · simp at h
    · exact absurd h blockCycle_ne_fault
  · rcases andThen_eq_fault h with h1 | ⟨s', -, h2⟩
    · exact (readRegister_eq_fault h1).2
    · exact absurd h2 blockCycle_ne_fault
  · rcases andThen_eq_fault h with h1 | ⟨s', -, h2⟩
    · exact absurd h1 driveInputs_ne_fault
    · exact absurd h2 blockCycle_ne_fault
  · exact absurd h blockCycle_ne_fault
  · exact absurd h blockCycle_ne_fault
  · exact absurd h blockCycle_ne_fault

end Sys2Proof.Machine
end

