-- ==== Sys2Proof/Tests/Slice0.lean ====
section
/-! SUPPORT. Tests of one step or one operation each, with values taken from spec/95_test_vectors.md or worked out by hand from
the rules; and, for every statement that has hypotheses, values that meet them. -/

-- One kernel evaluation at a time: each would otherwise take a thread with a deep stack of its own.
set_option Elab.async false

namespace Sys2Proof.Tests

open Sys2Proof.Machine

/-- The state a step answers, if it answers one. -/
def nextOf (o : Host.Outcome State Fault Refusal) : Option State :=
  match o with
  | .next s => some s
  | _ => none

/-- STATUS and the record registers after one step that decodes a table word from reset. -/
def afterWord (w : Nat) : Option (BitVec 8 × Record) :=
  (nextOf (step (State.reset.withFetchWord 112 w))).map outputs

/-- V1 of 95_test_vectors.md. -/
def v1 : Frame := 0xff00028a3c32320310ae

/-- The record of V1. -/
def v1Record : Record :=
  { tempDc := 250, hum := 60, wavg := 61200, wgust := 61200, rainDmm := 2352, battLow := 0 }

/-- No record: six zeros. -/
def zeroRecord : Record := { tempDc := 0, hum := 0, wavg := 0, wgust := 0, rainDmm := 0, battLow := 0 }

/-- The reset state with V1 on the inputs, one row of 80 bits. -/
def v1Driven : State := withInputs 1 80 v1 State.reset

/-- The same with START high. -/
def v1Started : State := withStart true v1Driven

/-- A decode of V1 in progress with `left` steps to go. -/
def v1Busy (left : Nat) : State := { v1Driven with phase := .busy left }

/-- A block after power-up with PHASE BUSY, its registers holding anything (70_reset_and_hazards.md R243). -/
def poweredUp : State := { v1Busy 1 with resetSeen := false, hum := 77, done := true, code := 5 }

/-- A machine whose every decode takes `n` steps. -/
def latencyParams (n : Nat) : Params := { crc8Fn := crc8, latency := fun _ => n }

/-- The fields of V1. -/
def v1Fields : FrameFields :=
  { u := 0, s := 0, t := 0x28A, h := 60, a := 50, g := 50, b := 0, r := 0x310, c := 0xAE }

/-! ## Well-formed instructions: each check refuses an ill-formed term -/

theorem test_wellFormed_refuses_one_row : (Instr.rejRows 1 80 v1).wellFormed = false := by decide
theorem test_wellFormed_refuses_eighty_bits : (Instr.rejLen 80 v1).wellFormed = false := by decide
theorem test_wellFormed_refuses_the_preamble : (Instr.rejPre 0xFF 0).wellFormed = false := by decide
theorem test_wellFormed_refuses_a_right_crc : (Instr.rejCrc v1Fields).wellFormed = false := by decide +kernel
theorem test_wellFormed_refuses_a_wrong_crc :
    (Instr.accept { v1Fields with c := 0xAF }).wellFormed = false := by decide +kernel

/-! ## Words written out bit by bit from 30_encoding.md sections 1, 2 and 4, decoded -/

/-- G1: no row. IN_ROWS = 0, IN_BITS = 80, V1. -/
theorem test_decode_no_row :
    decodeTableWord 112 0b0000000000000000000000000101000011111111000000000000001010001010001111000011001000110010000000110001000010101110
      = some (.rejRows 0 80 v1) := by decide

/-- G5: IN_ROWS = 1, IN_BITS = 79, V1. -/
theorem test_decode_79_bits :
    decodeTableWord 112 0b0000000000000001000000000100111111111111000000000000001010001010001111000011001000110010000000110001000010101110
      = some (.rejLen 79 v1) := by decide

/-- G10: byte 0 = 0x7F. -/
theorem test_decode_wrong_preamble :
    decodeTableWord 112 0b0000000000000001000000000101000001111111000000000000001010001010001111000011001000110010000000110001000010101110
      = some (.rejPre 0x7F 0x00028a3c32320310ae) := by decide

/-- K2: byte 9 = 0xAD where the CRC is 0xAE. -/
theorem test_decode_wrong_crc :
    decodeTableWord 112 0b0000000000000001000000000101000011111111000000000000001010001010001111000011001000110010000000110001000010101101
      = some (.rejCrc { v1Fields with c := 0xAD }) := by decide +kernel

/-- B9: temperature 0x12C, humidity 0x55, wind 0 and 0x0A, battery nibble 1, rain 0x234, CRC 0x7C. -/
theorem test_decode_accept :
    decodeTableWord 112 0b0000000000000001000000000101000011111111000000000000000100101100010101010000000000001010000100100011010001111100
      = some (.accept { u := 0, s := 0, t := 0x12C, h := 0x55, a := 0, g := 0x0A, b := 1, r := 0x234, c := 0x7C }) := by
  decide +kernel

/-- The don't-care of the table's word does not hide the length: more bits than a word has are no instruction. -/
theorem test_decode_too_long : decodeTableWord 120 0 = none := by decide

/-- Thirteen bytes are no transaction word. -/
theorem test_decode_too_short :
    (match decodeBytes (List.replicate 13 0) with
      | .error .tooShort => true
      | .ok _ => false) = true := by decide

/-- The encoder writes the word of G14, `0001 0050 0000028a3c3232031000`. -/
theorem test_encode_preamble :
    encode (.rejPre 0x00 0x00028a3c3232031000) = 0x000100500000028a3c3232031000 := by decide

/-- The encoder writes the word of B6, every field bit 1 and the CRC 0x93. -/
theorem test_encode_accept :
    encode (.accept { u := 0xFF, s := 0xF, t := 0xFFF, h := 0xFF, a := 0xFF, g := 0xFF, b := 0xF, r := 0xFFF, c := 0x93 })
      = 0x00010050ffffffffffffffffff93 := by decide

/-! ## One step on a word of 95_test_vectors.md -/

/-- G12: two rows of 79 bits with a wrong preamble and CRC: the row count wins. -/
theorem test_step_rejRows : afterWord 0x0002004f0000028a3c3232031000 = some (0x05, zeroRecord) := by decide

/-- G13: 79 bits with a wrong preamble and CRC: the length wins. -/
theorem test_step_rejLen : afterWord 0x0001004f0000028a3c3232031000 = some (0x09, zeroRecord) := by decide

/-- G14: a wrong preamble and CRC: the preamble wins. -/
theorem test_step_rejPre : afterWord 0x000100500000028a3c3232031000 = some (0x0D, zeroRecord) := by decide

/-- K7: two bit errors. -/
theorem test_step_rejCrc : afterWord 0x00010050ff00028b3c32b20310ae = some (0x11, zeroRecord) := by decide +kernel

/-- V1. -/
theorem test_step_accept : afterWord 0x00010050ff00028a3c32320310ae = some (0x03, v1Record) := by decide +kernel

/-- B6: every field at its maximum, battery nibble 15 is OK. -/
theorem test_step_accept_max :
    afterWord 0x00010050ffffffffffffffffff93 =
      some (0x03, { tempDc := 3695, hum := 255, wavg := 312120, wgust := 312120, rainDmm := 12285, battLow := 0 }) := by
  decide +kernel

/-- B9: a negative temperature, -100 is 0xFF9C, and a low battery. -/
theorem test_step_accept_negative :
    afterWord 0x00010050ff00012c55000a12347c =
      some (0x03, { tempDc := 0xFF9C, hum := 85, wavg := 0, wgust := 12240, rainDmm := 1692, battLow := 1 }) := by
  decide +kernel

/-! ## START, commit, reset (95_test_vectors.md T1 to T7) -/

/-- T1: START after reset reads BUSY = 1, DONE = 0: STATUS 0x20. -/
theorem test_start_status :
    (nextOf (stepWith (latencyParams 2) v1Started)).map outputs = some (0x20, zeroRecord) := by decide

/-- T2: the commit of T1's decode. -/
theorem test_commit_status :
    (nextOf (stepWith (latencyParams 2) (v1Busy 1))).map outputs = some (0x03, v1Record) := by decide +kernel

/-- T3: START after an accepted decode keeps VALID and the record: STATUS 0x22. -/
theorem test_start_keeps_the_record :
    (nextOf (stepWith (latencyParams 2) (commitAccepted v1Record v1Started))).map outputs =
      some (0x22, v1Record) := by decide

/-- T5: RST before the commit abandons the decode. -/
theorem test_reset_abandons :
    (nextOf (stepWith (latencyParams 2)
        { commitAccepted v1Record v1Driven with phase := .busy 1, script := [.reset] })).map
      (fun t => (outputs t, t.phase)) = some ((0x00, zeroRecord), .idle) := by decide

/-- T7: a READ of HUM after V1 gives 60 and leaves the registers. -/
theorem test_read_hum :
    (nextOf (step { commitAccepted v1Record State.reset with script := [.read .hum] })).map
      (fun t => (t.answers, outputs t)) = some ([.hum 60], (0x03, v1Record)) := by decide

/-- R243: before the first reset a START is refused whatever PHASE holds. -/
theorem test_powerUp_start_refused :
    stepWith (latencyParams 2) { poweredUp with script := [.setStart true] } = .refused .startBeforeReset := rfl

/-- R243: before the first reset a PHASE of BUSY is no decode: nothing commits, and there is no result. -/
theorem test_powerUp_commits_nothing :
    (nextOf (stepWith (latencyParams 2) poweredUp)).map (fun t => (outputs t, resultOf t)) =
      some (outputs poweredUp, .noResult) := by decide

/-- Q1: the check value of the default CRC-8, over the ASCII digits 1 to 9. -/
theorem test_crc_check_value :
    crc8 [0x31, 0x32, 0x33, 0x34, 0x35, 0x36, 0x37, 0x38, 0x39] 9 0x31 0xFF = 0xF7 := by decide +kernel

/-! ## Values that meet the hypotheses of each statement -/

theorem witness_DecodeOfEncodeIsIdentity :
    (Instr.rejRows 0 80 v1).wellFormedWith crc8 = true ∧ (Instr.rejRows 2 80 v1).wellFormedWith crc8 = true ∧
    (Instr.rejLen 79 v1).wellFormedWith crc8 = true ∧ (Instr.rejLen 81 v1).wellFormedWith crc8 = true ∧
    (Instr.rejPre 0xFE 0).wellFormedWith crc8 = true ∧
    (Instr.rejCrc { v1Fields with c := 0xAF }).wellFormedWith crc8 = true ∧
    (Instr.accept v1Fields).wellFormedWith crc8 = true := by decide +kernel

theorem witness_WordClassesFollowTheTable : State.reset.resetSeen = true := by decide

theorem witness_FrameFieldsPartitionTheFrame : byteAt v1 0 = 0xFF := by decide

theorem witness_DontCareBitsDoNotMatter :
    (0 : BitVec 16) ≠ 1 ∧ (0xFFFF : BitVec 16) ≠ 1 ∧ (79 : BitVec 16) ≠ 80 ∧
    byteAt 0xfe00028a3c32320310ae 0 ≠ 0xFF ∧
    byteAt 0xfe000000000000000000 0 = byteAt 0xfe00028a3c32320310ae 0 := by decide

/-- For each of its clauses (b) and (c) at 0 and at the ends of their ranges. -/
theorem witness_StepRunsTheDecodedInstruction :
    ({ State.reset with script := [.decode 1 80 v1] }.phase = .idle ∧
      classifyWith crc8 (txWord (saturate16 1) (saturate16 80) v1) = .accept v1Fields) ∧
    ((v1Busy 0).phase = .busy 0 ∧ (v1Busy 1).phase = .busy 1 ∧ (v1Busy 1).script = [] ∧
      (v1Busy 1).pins.rst = false ∧ (v1Busy 1).resetSeen = true) ∧
    (v1Started.script = [] ∧ v1Started.pins.rst = false ∧ v1Started.pins.start = true ∧ v1Started.phase = .idle ∧
      v1Started.resetSeen = true ∧ (latencyParams 0).latency v1Started.latencyIdx = 0) := by decide +kernel

theorem witness_FetchedWordRunsNext :
    decodeTableWord 112 0x00010050ff00028a3c32320310ae = some (.accept v1Fields) := by decide +kernel

/-- Two blocks with the same inputs in different states. -/
theorem witness_OutcomeDependsOnTheInputsAlone :
    v1Driven.pins.rows = (commitRejected .wrongLength v1Driven).pins.rows ∧
    v1Driven.pins.bits = (commitRejected .wrongLength v1Driven).pins.bits ∧
    v1Driven.pins.frame = (commitRejected .wrongLength v1Driven).pins.frame ∧
    v1Driven.resetSeen = true ∧ (commitRejected .wrongLength v1Driven).resetSeen = true ∧
    v1Driven ≠ commitRejected .wrongLength v1Driven := by decide

theorem witness_RowCountGateRejects :
    (withInputs 0 80 v1 State.reset).pins.rows ≠ 1 ∧ (withInputs 2 80 v1 State.reset).pins.rows ≠ 1 ∧
    (withInputs 2 80 v1 State.reset).resetSeen = true ∧ (withInputs 65537 80 v1 State.reset).pins.rows ≠ 1 := by decide

theorem witness_LengthGateRejects :
    (withInputs 1 79 v1 State.reset).pins.rows = 1 ∧ (withInputs 1 79 v1 State.reset).pins.bits ≠ 80 ∧
    (withInputs 1 81 v1 State.reset).pins.bits ≠ 80 := by decide

theorem witness_PreambleGateRejects :
    (withInputs 1 80 0xfe00028a3c32320310ae State.reset).pins.rows = 1 ∧
    (withInputs 1 80 0xfe00028a3c32320310ae State.reset).pins.bits = 80 ∧
    (withInputs 1 80 0xfe00028a3c32320310ae State.reset).pins.frame.extractLsb' 72 8 ≠ 0xFF := by decide

/-- For both of its clauses. -/
theorem witness_ChecksumGateDecidesAcceptance :
    v1Driven.pins.rows = 1 ∧ v1Driven.pins.bits = 80 ∧ byteAt v1Driven.pins.frame 0 = 0xFF ∧
    payloadCrc crc8 v1Driven.pins.frame = byteAt v1Driven.pins.frame 9 ∧
    payloadCrc crc8 0xff00028a3c32320310af ≠ byteAt 0xff00028a3c32320310af 9 := by decide +kernel

theorem witness_BatteryIsLowExactlyForNibbleOne :
    ({ v1Fields with b := 1 } : FrameFields).b = 1 ∧ v1Fields.b ≠ 1 ∧
    ({ v1Fields with b := 3 } : FrameFields).b ≠ 1 := by decide

theorem witness_ResultViewReadsTheOutcome :
    State.reset.done = false ∧ (commitAccepted v1Record State.reset).resetSeen = true ∧
    ((commitAccepted v1Record State.reset).done = true ∧ (commitAccepted v1Record State.reset).valid = true) ∧
    ((commitRejected .checksumMismatch State.reset).done = true ∧
      (commitRejected .checksumMismatch State.reset).valid = false ∧
      (commitRejected .checksumMismatch State.reset).code = reasonCode .checksumMismatch) := by decide

theorem witness_ReadHasNoSideEffect :
    State.reset.resetSeen = true ∧ State.reset.code.toNat ≤ 4 ∧ State.reset.phase = .idle ∧
    State.reset.pins.rst = false ∧ State.reset.pins.start = false := by decide

theorem witness_ReasonCodesAndReservedCodes :
    ({ State.reset with code := 5 } : State).resetSeen = true ∧ ({ State.reset with code := 5 } : State).code = 5 ∧
    ({ State.reset with code := 7 } : State).code = 7 := by decide

theorem witness_StartSetsBusyAndClearsDone :
    v1Started.script = [] ∧ v1Started.pins.rst = false ∧ v1Started.pins.start = true ∧ v1Started.phase = .idle ∧
    v1Started.resetSeen = true ∧ (latencyParams 2).latency v1Started.latencyIdx = 1 + 1 := by decide

theorem witness_StartWhileBusyIsIgnored :
    (v1Busy 2).phase = .busy 2 ∧ (v1Busy 0).phase = .busy 0 ∧ (v1Busy 2).resetSeen = true := by decide

/-- For both of its clauses, at the boundary between them: 2 steps left, and 1. -/
theorem witness_EveryBusyStepApproachesTheCommit :
    ((v1Busy 2).phase = .busy 2 ∧ (v1Busy 2).resetSeen = true ∧ (v1Busy 2).pins.rst = false ∧
      (v1Busy 2).script.head? ≠ some .reset ∧
      (v1Busy 2).script.head? ≠ some (.setRst true) ∧
      nextOf (stepWith (latencyParams 2) (v1Busy 2)) = some (v1Busy 1)) ∧
    (nextOf (stepWith (latencyParams 2) (v1Busy 1))).isSome = true := by decide +kernel

/-- A host that raises START, reads, drives the inputs that are there, lowers START and RST, with a latency of 2; and one that
makes no move, with a latency of 0. -/
theorem witness_CommitFollowsStartAfterLatency :
    ((afterHead { v1Driven with script := [.setStart true, .read .status, .drive 1 80 v1, .reset] }).pins.start = true ∧
      (∀ m ∈ ([.setStart true, .read .status, .drive 1 80 v1, .reset] : List HostMove).take (2 + 1),
        keepsDecode v1Driven.pins m = true) ∧
      (∀ m ∈ ([.setStart false, .setRst false, .wait] : List HostMove), keepsDecode v1Driven.pins m = true) ∧
      v1Driven.phase = .idle ∧ v1Driven.pins.rst = false ∧ v1Driven.resetSeen = true ∧ v1Driven.code.toNat ≤ 4 ∧
      (latencyParams 2).latency v1Driven.latencyIdx = 2 ∧ 1 ≤ 2 ∧ 2 ≤ 2) ∧
    ((afterHead v1Started).pins.start = true ∧ v1Started.script = [] ∧
      (latencyParams 0).latency v1Started.latencyIdx = 0) := by decide

/-- With a second latency of 2, and of 0. -/
theorem witness_HeldStartDecodesRepeatedly :
    v1Started.script = [] ∧ v1Started.pins.rst = false ∧ v1Started.pins.start = true ∧ v1Started.phase = .idle ∧
    v1Started.resetSeen = true ∧ (latencyParams 2).latency v1Started.latencyIdx = 2 ∧
    (latencyParams 2).latency (v1Started.latencyIdx + 1) = 2 ∧ 1 ≤ 2 ∧
    (latencyParams 0).latency (v1Started.latencyIdx + 1) = 0 := by decide

theorem witness_TwoStepFormEqualsAtomicDecode :
    State.reset.phase = .idle ∧ State.reset.pins.rst = false ∧ State.reset.pins.start = false ∧
    State.reset.resetSeen = true := by decide

/-- A BUSY block with START high, held in reset; the START after it has a latency of 2. -/
theorem witness_RstHoldsTheBlockInReset :
    (withRst true (withStart true (v1Busy 2))).pins.rst = true ∧
    (latencyParams 2).latency (applyReset (withRst true (withStart true (v1Busy 2)))).latencyIdx = 1 + 1 := by decide

/-- The same block, and for each of its clauses a move: none, a change of the inputs, raising RST, a READ, a DECODE, RESET,
lowering RST. -/
theorem witness_ResetFromEveryState :
    ((withRst true (withStart true (v1Busy 2))).script = [] ∧
      (withRst true (withStart true (v1Busy 2))).pins.rst = true ∧
      (withRst true (withStart true (v1Busy 2))).resetSeen = true ∧
      (withRst true (withStart true (v1Busy 2))).code.toNat ≤ 4) ∧
    (portMove (.drive 2 79 v1) = true ∧ (afterMove (.drive 2 79 v1) (withRst true (v1Busy 2))).pins.rst = true ∧
      portMove (.setRst true) = true ∧ (afterMove (.setRst true) (v1Busy 2)).pins.rst = true ∧
      portMove .wait = true ∧ portMove (.setStart true) = true) ∧
    (({ v1Busy 2 with script := [.drive 2 79 v1] } : State).script = [.drive 2 79 v1] ∧
      ({ v1Busy 2 with script := [.read .status] } : State).script = [.read .status] ∧
      ({ v1Busy 2 with script := [.decode 1 80 v1] } : State).script = [.decode 1 80 v1] ∧
      ({ v1Busy 2 with script := [.reset] } : State).script = [.reset] ∧
      ({ State.reset with script := [.setRst false] } : State).script = [.setRst false]) ∧
    (State.reset.phase = .idle ∧ State.reset.pins.start = false) := by decide

/-- A block after power-up with PHASE BUSY, for each of its clauses. -/
theorem witness_BeforeTheFirstResetStartAndReadAreRefused :
    poweredUp.resetSeen = false ∧
    ((withStart true poweredUp).script = [] ∧ (withStart true poweredUp).pins.rst = false ∧
      (withStart true poweredUp).pins.start = true) ∧
    (portMove (.setStart true) = true ∧ (afterMove (.setStart true) poweredUp).pins.rst = false ∧
      (afterMove (.setStart true) poweredUp).pins.start = true ∧
      portMove (.setRst false) = true ∧
      (afterMove (.setRst false) (withStart true (withRst true poweredUp))).pins.rst = false) ∧
    (({ poweredUp with script := [.setStart true] } : State).script = [.setStart true] ∧
      ({ poweredUp with script := [.decode 1 80 v1] } : State).script = [.decode 1 80 v1] ∧
      ({ poweredUp with script := [.read .hum] } : State).script = [.read .hum] ∧
      ({ poweredUp with script := [.reset] } : State).script = [.reset]) ∧
    (nextOf (stepWith (latencyParams 2) poweredUp)).isSome = true ∧
    (nextOf (stepWith (latencyParams 2) { poweredUp with script := [.setRst true] })).isSome = true := by decide

/-- A change of each input alone, and no change. -/
theorem witness_InputChangeWhileBusyIsRefused :
    (v1Busy 2).phase = .busy 2 ∧ (v1Busy 2).resetSeen = true ∧ (v1Busy 2).pins.rst = false ∧
    poweredUp.phase = .busy 1 ∧ poweredUp.resetSeen = false ∧ (withRst true (v1Busy 2)).pins.rst = true ∧
    saturate16 2 ≠ (v1Busy 2).pins.rows ∧ saturate16 79 ≠ (v1Busy 2).pins.bits ∧
    0 ≠ (v1Busy 2).pins.frame ∧ saturate16 1 = (v1Busy 2).pins.rows ∧ saturate16 80 = (v1Busy 2).pins.bits ∧
    v1 = (v1Busy 2).pins.frame := by decide

/-- A count that would wrap to 1, and a length that would wrap to 80. -/
theorem witness_CountsSaturateAndNeverWrap :
    State.reset.phase = .idle ∧ State.reset.pins.rst = false ∧ State.reset.resetSeen = true ∧
    65537 ≠ 1 ∧ 65536 + 80 ≠ 80 ∧
    ({ State.reset with script := [.decode 65537 80 v1] } : State).script = [.decode 65537 80 v1] := by decide

/-- The invariant holds of a BUSY state whose step answers a next state. -/
theorem witness_EveryStepKeepsTheInvariant :
    Inv (v1Busy 2) ∧ (nextOf (stepWith (latencyParams 2) (v1Busy 2))).isSome = true :=
  ⟨by decide, by decide⟩

theorem witness_NoStepFaultsFromTheInvariant : Inv State.reset := by decide

/-- A step that changes the outputs by reset, by START and by a commit. -/
theorem witness_OnlyResetStartAndCommitWriteOutputs :
    (nextOf (stepWith (latencyParams 2) (v1Busy 1))).map outputs ≠ some (outputs (v1Busy 1)) ∧
    (nextOf (stepWith (latencyParams 2) v1Started)).map outputs ≠ some (outputs v1Started) ∧
    (nextOf (stepWith (latencyParams 2) { commitAccepted v1Record v1Driven with script := [.reset] })).map outputs ≠
      some (outputs (commitAccepted v1Record v1Driven)) := by decide +kernel

theorem witness_OutputsAreStableUntilTheNextStart :
    (commitAccepted v1Record State.reset).phase = .idle ∧ quietMove (.drive 1 80 v1) = true ∧
    quietMove (.read .status) = true ∧
    (nextOf (step { commitAccepted v1Record State.reset with script := [.drive 1 80 v1] })).isSome = true := by
  decide

theorem witness_PreambleAbsorbsTheSeed : byteAt v1 0 = 0xFF := by decide

theorem witness_DefaultCrcIsAffine :
    ([0x01, 0x80] : List Byte).length = 2 ∧ ([0xFF, 0x00] : List Byte).length = 2 := by decide

/-- An accepted frame, with a bit in byte 0 and bits in bytes 1 to 9. -/
theorem witness_SingleBitErrorsAreRejected :
    decodeFrameWith crc8 1 80 v1 = .accepted v1Record ∧ 72 < 80 ∧ 71 < 80 ∧ 0 < 80 := by decide +kernel

theorem witness_DoubleBitErrorsInThePayloadAreRejected :
    decodeFrameWith crc8 1 80 v1 = .accepted v1Record ∧ 8 ≤ 8 ∧ 8 < 71 ∧ 71 < 72 := by decide +kernel

end Sys2Proof.Tests
end

section
/-! PROOFS. The registers and the result view (10_state.md): what a commit leaves for the host to see, what a DECODE
transaction commits, and the statements O11, O44, O19, O30, O31 and O50. -/

namespace Sys2Proof.Machine

/-! ## Reason codes and the result view -/

@[simp] theorem reasonOfCode_reasonCode (r : Reason) : reasonOfCode (reasonCode r) = some r := by
  cases r <;> rfl

theorem reasonCode_range (r : Reason) : 1 ≤ (reasonCode r).toNat ∧ (reasonCode r).toNat ≤ 4 := by
  cases r <;> decide

theorem resultOf_of_not_done {s : State} (h : s.done = false) : resultOf s = .noResult := by
  simp [resultOf, h]

theorem resultOf_of_valid {s : State} (hz : s.resetSeen = true) (hd : s.done = true) (hv : s.valid = true) :
    resultOf s = .accepted (recordOf s) := by
  simp [resultOf, hz, hd, hv]

theorem resultOf_of_reasonCode {s : State} {r : Reason} (hz : s.resetSeen = true) (hd : s.done = true)
    (hv : s.valid = false) (hc : s.code = reasonCode r) : resultOf s = .rejected r := by
  simp [resultOf, hz, hd, hv, hc]

/-! ## What a commit leaves for the host to see -/

/-- The outcome of a decode as the result view shows it (10_state.md R43). -/
def Verdict.result (v : Verdict) : Result :=
  match v with
  | .accepted rec => .accepted rec
  | .rejected reason => .rejected reason

/-- A commit writes all of STATUS and the record, so the state before it leaves no trace there. -/
theorem outputs_commit_eq (v : Verdict) (s s' : State) : outputs (commit v s) = outputs (commit v s') := by
  cases v <;> rfl

/-- After its commit a block that has been reset shows the outcome itself. -/
theorem resultOf_commit (v : Verdict) {s : State} (hz : s.resetSeen = true) :
    resultOf (commit v s) = v.result := by
  cases v with
  | accepted rec => exact resultOf_of_valid hz rfl rfl
  | rejected r => exact resultOf_of_reasonCode hz rfl rfl rfl

theorem commit_code_le_four (v : Verdict) (s : State) : (commit v s).code.toNat ≤ 4 := by
  cases v with
  | accepted rec => exact Nat.zero_le 4
  | rejected r => exact (reasonCode_range r).2

/-- VALID is 1 exactly when CODE is 0 (10_state.md R30): no reason has the code 0. -/
theorem commit_valid_iff_code_eq_zero (v : Verdict) (s : State) :
    (commit v s).valid = true ↔ (commit v s).code = 0 := by
  cases v with
  | accepted rec => simp [commit]
  | rejected r =>
    have hr : reasonCode r ≠ 0 := by cases r <;> decide
    simpa [commit] using hr

/-! ## STATUS (10_state.md R27) -/

/-- STATUS bit by bit: the layout of 10_state.md R27, from which each field is read back. -/
theorem statusWord_getLsbD (s : State) (i : Nat) :
    (statusWord s).getLsbD i =
      if i = 0 then s.done
      else if i = 1 then s.valid
      else if i < 5 then s.code.getLsbD (i - 2)
      else if i = 5 then isBusy s.phase
      else false := by
  simp only [statusWord, BitVec.getLsbD_append, BitVec.getLsbD_ofBool]
  match i with
  | 0 | 1 | 2 | 3 | 4 | 5 => simp
  | n + 6 => simp

theorem statusWord_code (s : State) : (statusWord s).extractLsb' 2 3 = s.code := by
  apply BitVec.eq_of_getLsbD_eq
  intro i hi
  have h1 : 2 + i ≠ 1 := by omega
  have h2 : 2 + i < 5 := by omega
  rw [BitVec.getLsbD_extractLsb', statusWord_getLsbD]
  simp [hi, h1, h2]

theorem statusWord_reserved (s : State) : (statusWord s).extractLsb' 6 2 = 0 := by
  apply BitVec.eq_of_getLsbD_eq
  intro i hi
  have h1 : 6 + i ≠ 1 := by omega
  have h2 : ¬ 6 + i < 5 := by omega
  have h3 : 6 + i ≠ 5 := by omega
  rw [BitVec.getLsbD_extractLsb', statusWord_getLsbD]
  simp [h1, h2, h3]

theorem statusWord_applyReset (s : State) : statusWord (applyReset s) = 0 := by
  simp [statusWord, isBusy]

theorem isBusy_iff_ne_idle (p : Phase) : isBusy p = true ↔ p ≠ .idle := by
  cases p <;> simp [isBusy]

/-! ## Saturation (10_state.md R22, R23) -/

theorem saturate16_toNat (n : Nat) : (saturate16 n).toNat = min n 0xFFFF := by
  simp only [saturate16, BitVec.toNat_ofNat]; omega

/-- Below the largest value of the port, a driven count is read as `x` only where it is `x`: none wraps to it. -/
theorem saturate16_eq_iff {n : Nat} {x : BitVec 16} (hx : x.toNat < 0xFFFF) : saturate16 n = x ↔ n = x.toNat := by
  rw [← BitVec.toNat_inj, saturate16_toNat]; omega

/-! ## The structural gates of a transaction word -/

@[simp] theorem rowsField_txWord (rows bits : BitVec 16) (frame : Frame) :
    rowsField (txWord rows bits frame) = rows := by
  apply BitVec.eq_of_getLsbD_eq
  intro i hi
  have h1 : ¬ 96 + i < 80 := by omega
  have h2 : ¬ 96 + i - 80 < 16 := by omega
  have h3 : 96 + i - 80 - 16 = i := by omega
  simp only [rowsField, txWord, BitVec.getLsbD_extractLsb', BitVec.getLsbD_append, h1, h2, h3]
  simp [hi]

@[simp] theorem bitsField_txWord (rows bits : BitVec 16) (frame : Frame) :
    bitsField (txWord rows bits frame) = bits := Laws.TableMatch.bits_of_txWord rows bits frame

theorem classVerdict_of_rows_ne {crc : Crc8Fn} {w : TxWord} (h : rowsField w ≠ cRows) :
    classVerdict (classifyWith crc w) = .rejected .multipleOrNoRows := by
  simp [classifyWith, h, classVerdict]

theorem classVerdict_of_bits_ne {crc : Crc8Fn} {w : TxWord} (hr : rowsField w = cRows) (h : bitsField w ≠ cFrameBits) :
    classVerdict (classifyWith crc w) = .rejected .wrongLength := by
  simp [classifyWith, hr, h, classVerdict]

/-! ## The DECODE transaction -/

theorem readyForDecode_of_idle {s : State} (hp : s.phase = .idle) (hr : s.pins.rst = false) :
    readyForDecode s = true := by
  simp [readyForDecode, decodeInProgress, isBusy, hp, hr]

/-- A ready block runs the DECODE at the head of the script in one step: the commit of the class of the word driven
(40_frame_decoder.md R110). -/
theorem stepWith_decode_of_ready {p : Params} {s : State} {n l : Nat} {f : Frame} {rest : List HostMove}
    (hs : s.script = .decode n l f :: rest) (hready : readyForDecode s = true) (hz : s.resetSeen = true) :
    stepWith p s = .next (commit (classVerdict (classifyWith p.crc8Fn (txWord (saturate16 n) (saturate16 l) f)))
      (withStart false (withInputs n l f { s with script := rest }))) := by
  simp [stepWith, hs, hready, decodeTransaction, hz, runDecode_eq_commit, inputWord]

/-- What the host sees of that step is the outcome of the word it drove. -/
theorem stepWith_decode_result {p : Params} {s : State} {n l : Nat} {f : Frame} {rest : List HostMove}
    (hs : s.script = .decode n l f :: rest) (hready : readyForDecode s = true) (hz : s.resetSeen = true) :
    ∃ t, stepWith p s = .next t ∧
      resultOf t = (classVerdict (classifyWith p.crc8Fn (txWord (saturate16 n) (saturate16 l) f))).result :=
  ⟨_, stepWith_decode_of_ready hs hready hz, resultOf_commit _ hz⟩

/-! ## The statements -/

/-- Settles O11: both blocks commit the outcome of the same word, and what the host sees of a commit is its outcome. -/
theorem outcomeDependsOnTheInputsAlone : Obligations.OutcomeDependsOnTheInputsAlone := by
  intro p s s' hrows hbits hframe
  have hword : inputWord s' = inputWord s := by simp only [inputWord, hrows, hbits, hframe]
  refine ⟨_, _, runDecode_eq_commit p s, runDecode_eq_commit p s', ?_, fun hz hz' => ?_⟩
  · rw [hword]; exact outputs_commit_eq _ s s'
  · rw [hword, resultOf_commit _ hz, resultOf_commit _ hz']

/-- Settles O44: a saturated count passes a structural gate only where the true count is the gate's own. -/
theorem countsSaturateAndNeverWrap : Obligations.CountsSaturateAndNeverWrap := by
  refine ⟨saturate16_toNat, fun p s n l f rest hp hr hz hs => ?_⟩
  have hrows : saturate16 n = cRows ↔ n = 1 := saturate16_eq_iff (by decide)
  have hbits : saturate16 l = cFrameBits ↔ l = 80 := saturate16_eq_iff (by decide)
  obtain ⟨t, hstep, hresult⟩ := stepWith_decode_result (p := p) hs (readyForDecode_of_idle hp hr) hz
  refine ⟨t, hstep, fun hn => ?_, fun hn hl => ?_⟩
  · rw [hresult, classVerdict_of_rows_ne (by simpa [hrows] using hn)]
    rfl
  · rw [hresult, classVerdict_of_bits_ne (by simpa [hrows] using hn) (by simpa [hbits] using hl)]
    rfl

/-- Settles O19: every class commits an outcome, and a commit writes CODE and VALID together. -/
theorem validExactlyWhenCodeIsZero : Obligations.ValidExactlyWhenCodeIsZero := by
  refine ⟨fun _ _ => rfl, fun r _ => ⟨rfl, reasonCode_range r⟩, fun i s => ?_, fun s => ?_⟩
  · exact ⟨_, exec_eq_commit i s, commit_code_le_four _ s, commit_valid_iff_code_eq_zero _ s⟩
  · exact ⟨rfl, rfl, rfl, resultOf_of_not_done rfl⟩

/-- Settles O30: each field of STATUS is read back from its bits. -/
theorem statusWordLayout : Obligations.StatusWordLayout := by
  refine ⟨statusWord_applyReset, fun s =>
    ⟨statusWord_getLsbD s 0, statusWord_getLsbD s 1, statusWord_code s, ?_, statusWord_reserved s⟩⟩
  have hbusy : (statusWord s).getLsbD 5 = isBusy s.phase := statusWord_getLsbD s 5
  rw [hbusy, isBusy_iff_ne_idle]

/-- Settles O31: one lemma about the result view for each of R43's three cases. -/
theorem resultViewReadsTheOutcome : Obligations.ResultViewReadsTheOutcome :=
  ⟨fun _ => resultOf_of_not_done, fun _ => resultOf_of_valid, fun _ _ => resultOf_of_reasonCode⟩

/-- Settles O50: the constants are closed numerals, and both steps are compared in cross-multiplied form. -/
theorem hardwiredConstants : Obligations.HardwiredConstants := by
  unfold Obligations.HardwiredConstants
  decide

end Sys2Proof.Machine
end

