-- ==== Sys2Proof/Proofs/Memory.lean ====
section
/-! PROOFS. The input window (20_memory.md): the bytes of a range, `MemRead` by recursion on its byte count, and the
statement O21. -/

namespace Sys2Proof.Machine

/-! ## Big-endian numbers -/

/-- A byte sequence read first byte most significant is its reverse read as base-256 digits. -/
theorem bigEndian_eq_ofDigits (bytes : List Byte) :
    bigEndian bytes = Nat.ofDigits 256 (bytes.reverse.map BitVec.toNat) := by
  simp [bigEndian, Nat.ofDigits_eq_foldr, List.foldl_map, Nat.add_comm, Nat.mul_comm]

theorem bigEndian_cons (b : Byte) (bs : List Byte) :
    bigEndian (b :: bs) = b.toNat * 2 ^ (8 * bs.length) + bigEndian bs := by
  rw [bigEndian_eq_ofDigits, bigEndian_eq_ofDigits, List.reverse_cons, List.map_append, Nat.ofDigits_append,
    Nat.pow_mul]
  simp [Nat.add_comm, Nat.mul_comm]

theorem bigEndian_lt (bytes : List Byte) : bigEndian bytes < 2 ^ (8 * bytes.length) := by
  have hdigit : ∀ d ∈ bytes.reverse.map BitVec.toNat, d < 256 := by
    intro d hd
    obtain ⟨b, -, rfl⟩ := List.mem_map.mp hd
    exact b.isLt
  have hlt := Nat.ofDigits_lt_base_pow_length (by decide) hdigit
  rw [bigEndian_eq_ofDigits, Nat.pow_mul]
  simpa using hlt

/-! ## The bytes of a range -/

@[simp] theorem windowBytes_length (frame : Frame) : (windowBytes frame).length = 10 := by simp [windowBytes]

/-- A range of `n + 1` bytes begins with the byte at its address. -/
theorem windowBytes_range_succ (frame : Frame) {a : Nat} (n : Nat) (ha : a < 10) :
    ((windowBytes frame).drop a).take (n + 1) =
      byteAt frame ⟨a, ha⟩ :: ((windowBytes frame).drop (a + 1)).take n := by
  rw [List.drop_eq_getElem_cons (by simpa using ha), List.take_succ_cons]
  simp [windowBytes]

theorem windowBytes_range_length (frame : Frame) {a n : Nat} (h : a + n ≤ 10) :
    (((windowBytes frame).drop a).take n).length = n := by
  rw [List.length_take, List.length_drop, windowBytes_length]
  omega

/-! ## MemRead -/

/-- The word `MemRead` answers is wide enough for the number its bytes make. -/
theorem memRead_toNat (frame : Frame) {a n : Nat} (h : a + n ≤ 10) :
    (memRead frame a n h).toNat = bigEndian (((windowBytes frame).drop a).take n) := by
  have hfit := bigEndian_lt (((windowBytes frame).drop a).take n)
  rw [windowBytes_range_length frame h] at hfit
  exact (BitVec.toNat_ofNat _ _).trans (Nat.mod_eq_of_lt hfit)

/-- R52 by recursion on the count: the first byte stands above `MemRead` of the others. -/
theorem memRead_succ_toNat (frame : Frame) {a n : Nat} (h : a + (n + 1) ≤ 10) :
    (memRead frame a (n + 1) h).toNat =
      (byteAt frame ⟨a, by omega⟩).toNat * 2 ^ (8 * n) + (memRead frame (a + 1) n (by omega)).toNat := by
  rw [memRead_toNat, memRead_toNat, windowBytes_range_succ frame n (by omega), bigEndian_cons,
    windowBytes_range_length frame (by omega)]

theorem memRead_zero_toNat (frame : Frame) {a : Nat} (h : a + 0 ≤ 10) : (memRead frame a 0 h).toNat = 0 := by
  rw [memRead_toNat, List.take_zero]
  rfl

/-! ## The statement -/

/-- Settles O21: one byte is the recursion's step above the empty range. -/
theorem memReadIsBigEndian : Obligations.MemReadIsBigEndian := by
  refine ⟨fun frame a h => ?_, fun frame a n h => memRead_succ_toNat frame h⟩
  rw [memRead_succ_toNat frame h, memRead_zero_toNat]
  simp

end Sys2Proof.Machine
end

