-- ==== Sys2Proof/Proofs/Encoding.lean ====
section
/-! PROOFS. The encoding (30_encoding.md): the fields of a frame as bits of the frame and of the word, the class of a word in
the bits of R75, and the statements O3 and O4. -/

namespace Sys2Proof.Machine

/-! ## Slices and concatenations -/

/-- A slice of a slice is a slice of the whole. -/
theorem extractLsb'_of_extractLsb' {w : Nat} (x : BitVec w) {start len i k : Nat} (h : i + k ≤ len) :
    (x.extractLsb' start len).extractLsb' i k = x.extractLsb' (start + i) k := by
  apply BitVec.eq_of_getLsbD_eq
  intro j hj
  have hlen : i + j < len := by omega
  simp [hj, hlen, Nat.add_assoc]

/-- A concatenation determines its two parts. -/
theorem append_eq_append_iff {m n : Nat} {x x' : BitVec m} {y y' : BitVec n} :
    x ++ y = x' ++ y' ↔ x = x' ∧ y = y' := by
  refine ⟨fun h => ⟨?_, ?_⟩, fun ⟨hx, hy⟩ => by rw [hx, hy]⟩
  · simpa [BitVec.extractLsb'_append_eq_left] using congrArg (BitVec.extractLsb' n m) h
  · simpa [BitVec.extractLsb'_append_eq_right] using congrArg (BitVec.extractLsb' 0 n) h

/-! ## The fields of a frame (30_encoding.md R71) -/

/-- Two bytes of the window as the bits they are. -/
theorem memRead_two_two (frame : Frame) : memRead frame 2 2 (by decide) = frame.extractLsb' 48 16 := by
  have hbytes : byteAt frame 2 ++ byteAt frame 3 = frame.extractLsb' 48 16 :=
    BitVec.extractLsb'_append_extractLsb'_eq_extractLsb' (start₁ := 48) (len₁ := 8) (len₂ := 8) rfl
  rw [← hbytes]
  apply BitVec.eq_of_toNat_eq
  rw [BitVec.toNat_append, ← Nat.shiftLeft_add_eq_or_of_lt (byteAt frame 3).isLt, Nat.shiftLeft_eq,
    memRead_succ_toNat, memRead_succ_toNat, memRead_zero_toNat]
  simp

/-- The temperature mask keeps the low twelve bits, so cutting to them makes it superfluous. -/
theorem setWidth_and_cTempMask (x : BitVec 16) : (x &&& cTempMask).setWidth 12 = x.extractLsb' 0 12 := by
  have hmask : cTempMask.setWidth 12 = BitVec.allOnes 12 := by decide
  rw [BitVec.setWidth_and, hmask, BitVec.and_allOnes, BitVec.setWidth_eq_extractLsb' (by decide)]

theorem sliceTemp_eq (frame : Frame) : sliceTemp frame = frame.extractLsb' 48 12 := by
  rw [sliceTemp, memRead_two_two, setWidth_and_cTempMask, extractLsb'_of_extractLsb' _ (by decide)]

theorem sliceRain_eq (frame : Frame) : sliceRain frame = frame.extractLsb' 8 12 := by
  have hlow : (byteAt frame 7).extractLsb' 0 4 = frame.extractLsb' 16 4 := extractLsb'_of_extractLsb' _ (by decide)
  rw [sliceRain, hlow]
  exact BitVec.extractLsb'_append_extractLsb'_eq_extractLsb' (start₁ := 8) (len₁ := 8) (len₂ := 4) rfl

theorem sliceBatt_eq (frame : Frame) : sliceBatt frame = frame.extractLsb' 20 4 :=
  extractLsb'_of_extractLsb' _ (by decide)

/-- Each field at the bits of the table of R71. -/
theorem fieldsOf_eq (frame : Frame) : fieldsOf frame =
    { u := frame.extractLsb' 64 8, s := frame.extractLsb' 60 4, t := frame.extractLsb' 48 12,
      h := frame.extractLsb' 40 8, a := frame.extractLsb' 32 8, g := frame.extractLsb' 24 8,
      b := frame.extractLsb' 20 4, r := frame.extractLsb' 8 12, c := frame.extractLsb' 0 8 } := by
  have hs : (byteAt frame 2).extractLsb' 4 4 = frame.extractLsb' 60 4 := extractLsb'_of_extractLsb' _ (by decide)
  rw [fieldsOf, hs, sliceTemp_eq, sliceRain_eq, sliceBatt_eq]
  rfl

/-- The slices of the table lie next to each other from bit 79 down to bit 0. -/
theorem frameOf_fieldsOf {frame : Frame} (h : byteAt frame 0 = cPreamble) : frameOf (fieldsOf frame) = frame := by
  have hpre : cPreamble = frame.extractLsb' 72 8 := h.symm
  rw [frameOf, fieldsOf_eq, hpre]
  iterate 9 rw [BitVec.extractLsb'_append_extractLsb'_eq_extractLsb' (by decide)]
  exact BitVec.extractLsb'_eq_self

/-- A frame determines its fields. -/
theorem frameOf_injective : Function.Injective frameOf := by
  intro f f' h
  obtain ⟨h, hc⟩ := append_eq_append_iff.mp h
  simp only [append_eq_append_iff] at h
  cases f
  cases f'
  simp_all only

theorem fieldsOf_frameOf (f : FrameFields) : fieldsOf (frameOf f) = f :=
  frameOf_injective (frameOf_fieldsOf (Laws.TableMatch.byte0_of_frameOf f))

/-- Byte 7 holds the battery nibble above the rain counter's high bits. -/
theorem byteAt_seven_eq (frame : Frame) :
    byteAt frame 7 = (fieldsOf frame).b ++ (fieldsOf frame).r.extractLsb' 8 4 := by
  rw [fieldsOf_eq, extractLsb'_of_extractLsb' _ (by decide)]
  exact (BitVec.extractLsb'_append_extractLsb'_eq_extractLsb' (start₁ := 16) (len₁ := 4) (len₂ := 4) rfl).symm

/-! ## The class of a word (30_encoding.md R75) -/

/-- A byte of the word's frame at its bits of the word. -/
theorem byteAt_frameField (w : TxWord) (i : Fin 10) :
    byteAt (frameField w) i = w.extractLsb' (72 - 8 * i.val) 8 := by
  rw [byteAt, frameField, extractLsb'_of_extractLsb' _ (by omega), Nat.zero_add]

/-- R75 in the bits of the word: the five conditions in their order, and the class each gives. -/
theorem classifyWith_eq (crc : Crc8Fn) (w : TxWord) : classifyWith crc w =
    if w.extractLsb' 96 16 ≠ 0x0001 then
      .rejRows (w.extractLsb' 96 16) (w.extractLsb' 80 16) (w.extractLsb' 0 80)
    else if w.extractLsb' 80 16 ≠ 0x0050 then .rejLen (w.extractLsb' 80 16) (w.extractLsb' 0 80)
    else if w.extractLsb' 72 8 ≠ 0xFF then .rejPre (w.extractLsb' 72 8) (w.extractLsb' 0 72)
    else if w.extractLsb' 0 8 ≠ payloadCrc crc (w.extractLsb' 0 80) then .rejCrc (fieldsOf (w.extractLsb' 0 80))
    else .accept (fieldsOf (w.extractLsb' 0 80)) := by
  have hpre : byteAt (frameField w) 0 = w.extractLsb' 72 8 := byteAt_frameField w 0
  have hlast : byteAt (frameField w) cCrcPos = w.extractLsb' 0 8 := byteAt_frameField w 9
  have hrest : (frameField w).extractLsb' 0 72 = w.extractLsb' 0 72 := extractLsb'_of_extractLsb' _ (by decide)
  simp only [classifyWith, hpre, hlast, hrest, ne_comm (b := w.extractLsb' 0 8)]
  rfl

/-! ## The statements -/

/-- Settles O3: in each of R75's five cases the class is known, and executing it commits the class's outcome. -/
theorem wordClassesFollowTheTable : Obligations.WordClassesFollowTheTable := by
  intro crc w s hz
  refine ⟨_, exec_eq_commit _ s, ?_⟩
  rw [resultOf_commit _ hz, classifyWith_eq]
  split_ifs
  · exact ⟨rfl, rfl, rfl⟩
  · exact ⟨rfl, rfl, rfl⟩
  · exact ⟨rfl, rfl, rfl⟩
  · exact ⟨⟨_, rfl⟩, rfl, rfl⟩
  · exact ⟨⟨_, rfl⟩, rfl, rfl⟩

/-- Settles O4: the fields are neighbouring slices of the frame, so they make it up and are read back from it. -/
theorem frameFieldsPartitionTheFrame : Obligations.FrameFieldsPartitionTheFrame :=
  ⟨fun _ => frameOf_fieldsOf, fun f => ⟨fieldsOf_frameOf f, Laws.TableMatch.byte0_of_frameOf f⟩, fieldsOf_eq,
    fun frame => ⟨rfl, rfl, byteAt_seven_eq frame⟩⟩

end Sys2Proof.Machine
end

