-- ==== Sys2Proof/Proofs/FrameDecoder.lean ====
section
/-! PROOFS. The frame decoder (40_frame_decoder.md): a decode as the commit of `DecodeFrame` on the ports, the gates in their
order, the cycles of a decode in progress, and the statements O10, O12, O13, O14, O17 and O35. -/

namespace Sys2Proof.Machine

/-! ## A decode commits the outcome of `DecodeFrame` -/

@[simp] theorem frameField_txWord (rows bits : BitVec 16) (frame : Frame) :
    frameField (txWord rows bits frame) = frame := Laws.TableMatch.frame_of_txWord rows bits frame

/-- The class of a word stands for the first gate its ports fail, or for the record of the frame (30_encoding.md R75). -/
theorem classVerdict_classifyWith_txWord (crc : Crc8Fn) (rows bits : BitVec 16) (frame : Frame) :
    classVerdict (classifyWith crc (txWord rows bits frame)) = decodeFrameWith crc rows bits frame := by
  simp only [classifyWith, rowsField_txWord, bitsField_txWord, frameField_txWord, decodeFrameWith, gateRows, gateLen,
    gatePre, gateCrc]
  split_ifs <;> rfl

theorem runDecode_eq_commit_decodeFrame (p : Params) (s : State) :
    runDecode p s = .next (commit (decodeFrameWith p.crc8Fn s.pins.rows s.pins.bits s.pins.frame) s) := by
  rw [runDecode_eq_commit, inputWord, classVerdict_classifyWith_txWord]

/-! ## The gates (40_frame_decoder.md R103 to R106) -/

/-! Each gate with the constants of R40, and the CRC of R143, written out. -/

theorem gateRows_eq (rows : BitVec 16) : gateRows rows = if rows ≠ 1 then some .multipleOrNoRows else none := rfl

theorem gateLen_eq (bits : BitVec 16) : gateLen bits = if bits ≠ 80 then some .wrongLength else none := rfl

theorem gatePre_eq (frame : Frame) :
    gatePre frame = if byteAt frame 0 ≠ 0xFF then some .preambleMissing else none := rfl

theorem gateCrc_eq (crc : Crc8Fn) (frame : Frame) :
    gateCrc crc frame = if payloadCrc crc frame ≠ byteAt frame 9 then some .checksumMismatch else none := rfl

/-- R106: the first gate that fails gives the reason, and a frame that passes all four its record. -/
theorem decodeFrameWith_eq (crc : Crc8Fn) (rows bits : BitVec 16) (frame : Frame) :
    decodeFrameWith crc rows bits frame =
      if rows ≠ 1 then .rejected .multipleOrNoRows
      else if bits ≠ 80 then .rejected .wrongLength
      else if byteAt frame 0 ≠ 0xFF then .rejected .preambleMissing
      else if payloadCrc crc frame ≠ byteAt frame 9 then .rejected .checksumMismatch
      else .accepted (frameRecord frame) := by
  rw [decodeFrameWith, gateRows_eq, gateLen_eq, gatePre_eq, gateCrc_eq]
  split_ifs <;> rfl

/-- STATUS after a rejection: DONE 1, VALID 0, the reason's code, BUSY 0 (10_state.md R27). -/
theorem statusWord_commit_rejected (r : Reason) (s : State) :
    statusWord (commit (.rejected r) s) = (0 : BitVec 3) ++ reasonCode r ++ (1 : BitVec 2) := by
  simp only [statusWord, commit, commitRejected, isBusy]
  cases r <;> decide

/-- What the host sees of a decode that fails a gate. -/
theorem runDecode_of_rejected {p : Params} {s : State} {r : Reason}
    (h : decodeFrameWith p.crc8Fn s.pins.rows s.pins.bits s.pins.frame = .rejected r) :
    ∃ t, runDecode p s = .next t ∧ statusWord t = (0 : BitVec 3) ++ reasonCode r ++ (1 : BitVec 2) ∧
      (s.resetSeen = true → resultOf t = .rejected r) := by
  refine ⟨commit (.rejected r) s, ?_, statusWord_commit_rejected r s, fun hz => resultOf_commit _ hz⟩
  rw [runDecode_eq_commit_decodeFrame, h]

/-! ## The cycles of a decode in progress -/

theorem runningCycle_of_busy_le_one {p : Params} {s : State} {left : Nat} (hp : s.phase = .busy left) (hl : left ≤ 1) :
    runningCycle p s = .next (commit (decodeFrameWith p.crc8Fn s.pins.rows s.pins.bits s.pins.frame) s) := by
  rw [← runDecode_eq_commit_decodeFrame]
  match left, hl with
  | 0, _ | 1, _ => simp only [runningCycle, hp]

theorem runningCycle_of_busy_add_two {p : Params} {s : State} {left : Nat} (hp : s.phase = .busy (left + 2)) :
    runningCycle p s = .next { s with phase := .busy (left + 1) } := by
  simp only [runningCycle, hp]

theorem commit_withStart (o : Verdict) (v : Bool) (s : State) :
    commit o (withStart v s) = withStart v (commit o s) := by cases o <;> rfl

/-- No cycle of a BUSY block reads START: it answers, and START passes through it unread (R109). -/
theorem blockCycle_withStart_of_busy (p : Params) {s : State} {left : Nat} (v : Bool) (hp : s.phase = .busy left)
    (hz : s.resetSeen = true) :
    ∃ t, blockCycle p s = .next t ∧ blockCycle p (withStart v s) = .next (withStart v t) := by
  cases hr : s.pins.rst with
  | true => exact ⟨applyReset s, blockCycle_of_rst hr, blockCycle_of_rst hr⟩
  | false =>
    rw [blockCycle_of_running hr hz, blockCycle_of_running (s := withStart v s) hr hz]
    match left with
    | 0 | 1 =>
      refine ⟨_, runningCycle_of_busy_le_one hp (by decide), ?_⟩
      rw [← commit_withStart]
      exact runningCycle_of_busy_le_one (s := withStart v s) hp (by decide)
    | n + 2 => exact ⟨_, runningCycle_of_busy_add_two hp, runningCycle_of_busy_add_two (s := withStart v s) hp⟩

/-! ## The statements -/

/-- Settles O10: a decode commits the outcome of `DecodeFrame`, whose gates stand in this order. -/
theorem decodeRunsTheGatesInOrder : Obligations.DecodeRunsTheGatesInOrder := by
  intro p s
  rw [runDecode_eq_commit_decodeFrame, decodeFrameWith_eq]

/-- Settles O35: the host's move is START alone, and a BUSY block's cycle does not read it. -/
theorem startWhileBusyIsIgnored : Obligations.StartWhileBusyIsIgnored := by
  intro p s left v rest hp hz
  exact blockCycle_withStart_of_busy p (s := { s with script := rest }) v hp hz

/-- Settles O12: the first gate fails. -/
theorem rowCountGateRejects : Obligations.RowCountGateRejects := by
  intro p s hrows
  exact runDecode_of_rejected (by rw [decodeFrameWith_eq, if_pos hrows])

/-- Settles O13: the second gate is the first to fail. -/
theorem lengthGateRejects : Obligations.LengthGateRejects := by
  intro p s hrows hbits
  exact runDecode_of_rejected (by rw [decodeFrameWith_eq, if_neg (not_not.mpr hrows), if_pos hbits])

/-- Settles O14: the third gate is the first to fail, and it reads byte 0 alone. -/
theorem preambleGateRejects : Obligations.PreambleGateRejects := by
  intro p s hrows hbits hpre
  have hbyte : byteAt s.pins.frame 0 ≠ 0xFF := hpre
  exact runDecode_of_rejected
    (by rw [decodeFrameWith_eq, if_neg (not_not.mpr hrows), if_neg (not_not.mpr hbits), if_pos hbyte])

/-- Settles O17: the outcome of the class is the record of its fields. -/
theorem acceptCommitsTheRecord : Obligations.AcceptCommitsTheRecord :=
  fun f s => exec_eq_commit (.accept f) s

end Sys2Proof.Machine
end

