-- ==== Sys2Proof/Proofs/Crc8Validator.lean ====
section
/-! PROOFS. The CRC-8 validator (41_crc8_validator.md): the checksum gate decides what the structural gates let through, and
the statement O15. -/

namespace Sys2Proof.Machine

/-- R143: past the three structural gates the outcome is the checksum gate's. -/
theorem decodeFrameWith_of_structural_gates {crc : Crc8Fn} {rows bits : BitVec 16} {frame : Frame} (hrows : rows = 1)
    (hbits : bits = 80) (hpre : byteAt frame 0 = 0xFF) :
    decodeFrameWith crc rows bits frame =
      if payloadCrc crc frame ≠ byteAt frame 9 then .rejected .checksumMismatch else .accepted (frameRecord frame) := by
  rw [decodeFrameWith_eq, if_neg (not_not.mpr hrows), if_neg (not_not.mpr hbits), if_neg (not_not.mpr hpre)]

/-- STATUS after an acceptance: DONE 1, VALID 1, CODE 0, BUSY 0 (10_state.md R27). -/
theorem statusWord_commit_accepted (rec : Record) (s : State) : statusWord (commit (.accepted rec) s) = 0x03 := by
  simp only [statusWord, commit, commitAccepted, isBusy]
  decide

/-- What the host sees of a decode that passes every gate. -/
theorem runDecode_of_accepted {p : Params} {s : State} {rec : Record}
    (h : decodeFrameWith p.crc8Fn s.pins.rows s.pins.bits s.pins.frame = .accepted rec) :
    ∃ t, runDecode p s = .next t ∧ statusWord t = 0x03 ∧ (s.resetSeen = true → resultOf t = .accepted rec) := by
  refine ⟨commit (.accepted rec) s, ?_, statusWord_commit_accepted rec s, fun hz => resultOf_commit _ hz⟩
  rw [runDecode_eq_commit_decodeFrame, h]

/-- Settles O15: the CRC of bytes 0..8 is byte 9 or not, and the other clause is then void. -/
theorem checksumGateDecidesAcceptance : Obligations.ChecksumGateDecidesAcceptance := by
  intro p s hrows hbits hpre
  have hgate := decodeFrameWith_of_structural_gates (crc := p.crc8Fn) hrows hbits hpre
  by_cases hcrc : payloadCrc p.crc8Fn s.pins.frame = byteAt s.pins.frame 9
  · obtain ⟨t, hrun, hseen⟩ := runDecode_of_accepted (hgate.trans (if_neg (not_not.mpr hcrc)))
    exact ⟨t, hrun, fun hne => absurd hcrc hne, fun _ => hseen⟩
  · obtain ⟨t, hrun, hseen⟩ := runDecode_of_rejected (hgate.trans (if_pos hcrc))
    exact ⟨t, hrun, fun _ => hseen, fun heq => absurd heq hcrc⟩

end Sys2Proof.Machine
end

