-- ==== Sys2Proof/Proofs/BitSlicer.lean ====
section
/-! PROOFS. The bit-slicer (42_bit_slicer.md): the temperature slice in the bytes of its rule, and the statement O22. -/

namespace Sys2Proof.Machine

/-- R160: the masked read of bytes 2 and 3 is the low nibble of byte 2 above byte 3. -/
theorem sliceTemp_eq_append (frame : Frame) :
    sliceTemp frame = (byteAt frame 2).extractLsb' 0 4 ++ byteAt frame 3 := by
  have hlow : (byteAt frame 2).extractLsb' 0 4 = frame.extractLsb' 56 4 := extractLsb'_of_extractLsb' _ (by decide)
  rw [sliceTemp_eq, hlow]
  exact (BitVec.extractLsb'_append_extractLsb'_eq_extractLsb' (start₁ := 48) (len₁ := 8) (len₂ := 4) rfl).symm

/-- Settles O22: temperature, rain and battery by their lemmas; the other slices are whole bytes, and a byte of the window
is by definition eight bits of the frame (20_memory.md R50). -/
theorem slicesReadTheirFrameBits : Obligations.SlicesReadTheirFrameBits := fun frame =>
  ⟨sliceTemp_eq frame, sliceTemp_eq_append frame, rfl, rfl, rfl, rfl, rfl, rfl, sliceRain_eq frame, rfl,
    sliceBatt_eq frame, rfl⟩

end Sys2Proof.Machine
end

