-- ==== Sys2Proof/Proofs/MeasurementScaler.lean ====
section
/-! PROOFS. The measurement scaler (43_measurement_scaler.md): no scaler overflows its register, so each holds the number of
its rule; and the statements O24, O25, O26, O27 and O28. -/

namespace Sys2Proof.Machine

/-! ## No overflow -/

/-- R180: the narrowing to 16 bits loses nothing, because a 12-bit raw value minus 400 is well inside the signed range. -/
theorem scaleTemp_toInt (raw : BitVec 12) : (scaleTemp raw).toInt = (raw.toNat : Int) - 400 := by
  have hraw := raw.isLt
  apply BitVec.toInt_ofInt_eq_self (by decide) <;> simp only [cTempOffset] <;> omega

/-- R180: the range of TEMP_DC, which a 16-bit register holds. -/
theorem scaleTemp_range (raw : BitVec 12) : -400 ≤ (scaleTemp raw).toInt ∧ (scaleTemp raw).toInt ≤ 3695 := by
  have hraw := raw.isLt
  rw [scaleTemp_toInt]
  omega

/-- R182: 1224 times a byte is below 2^19. -/
theorem scaleWind_toNat (raw : BitVec 8) : (scaleWind raw).toNat = 1224 * raw.toNat := by
  have hraw := raw.isLt
  apply Nat.mod_eq_of_lt
  simp only [cWindStep]
  omega

/-- R184: 3 times a 12-bit counter is below 2^14. -/
theorem scaleRain_toNat (raw : BitVec 12) : (scaleRain raw).toNat = 3 * raw.toNat := by
  have hraw := raw.isLt
  apply Nat.mod_eq_of_lt
  simp only [cRainStep]
  omega

/-! ## Physical units -/

/-- R180: a tenth of the temperature register is the source's formula in degrees Celsius, with no rounding. -/
theorem scaleTemp_celsius (raw : BitVec 12) : ((scaleTemp raw).toInt : ℚ) / 10 = ((raw.toNat : ℚ) - 400) / 10 := by
  rw [scaleTemp_toInt]
  push_cast
  ring

/-- R182: a thousandth of the wind register is the source's formula in km/h, with no rounding. -/
theorem scaleWind_kmh (raw : BitVec 8) :
    ((scaleWind raw).toNat : ℚ) / 1000 = (raw.toNat : ℚ) * (34 / 100) * (36 / 10) := by
  rw [scaleWind_toNat]
  push_cast
  ring

/-- R184: a tenth of the rain register is the source's formula in millimetres, with no rounding. -/
theorem scaleRain_mm (raw : BitVec 12) : ((scaleRain raw).toNat : ℚ) / 10 = (raw.toNat : ℚ) * (3 / 10) := by
  rw [scaleRain_toNat]
  push_cast
  ring

/-! ## The statements: ACCEPT puts the scaled fields in the record registers (`acceptCommitsTheRecord`) -/

/-- Settles O24: TEMP_DC is the scaled temperature. -/
theorem temperatureIsOffsetExactly : Obligations.TemperatureIsOffsetExactly := fun f s =>
  have ⟨hlow, hhigh⟩ := scaleTemp_range f.t
  ⟨_, acceptCommitsTheRecord f s, scaleTemp_toInt f.t, hlow, hhigh, scaleTemp_celsius f.t⟩

/-- Settles O26: the average and the gust take the same scaler (R183). -/
theorem windIsScaledExactly : Obligations.WindIsScaledExactly := fun f s =>
  ⟨_, acceptCommitsTheRecord f s, scaleWind_toNat f.a, scaleWind_kmh f.a, scaleWind_toNat f.g, scaleWind_kmh f.g⟩

/-- Settles O27: RAIN_DMM is overwritten with the scaled counter. -/
theorem rainIsScaledExactly : Obligations.RainIsScaledExactly := fun f s =>
  ⟨_, acceptCommitsTheRecord f s, scaleRain_toNat f.r, scaleRain_mm f.r⟩

/-- Settles O25: `PASS_HUM` is the identity. -/
theorem humidityPassesThrough : Obligations.HumidityPassesThrough := fun f s =>
  ⟨_, acceptCommitsTheRecord f s, rfl⟩

/-- Settles O28: the classifier tests for the one nibble `C_BATT_LOW`, which is 1. -/
theorem batteryIsLowExactlyForNibbleOne : Obligations.BatteryIsLowExactlyForNibbleOne := fun f s =>
  ⟨_, acceptCommitsTheRecord f s, fun hlow => if_pos hlow, fun hok => if_neg hok⟩

end Sys2Proof.Machine
end

