-- ==== Sys2Proof/Proofs/Exceptions.lean ====
section
/-! PROOFS. The rejections (60_exceptions.md): a READ of STATUS that finds a reserved CODE, and the statements O16 and
O33. -/

namespace Sys2Proof.Machine

/-! ## Reserved codes (60_exceptions.md R215) -/

/-- The codes above 4 are the three reserved ones. -/
theorem five_le_code_iff (c : BitVec 3) : 5 ≤ c.toNat ↔ c = 5 ∨ c = 6 ∨ c = 7 := by
  revert c
  decide

/-- After the first reset a READ of STATUS that finds a reserved CODE is a fault: the converse of `readRegister_eq_fault`. -/
theorem readRegister_status_of_reserved {s : State} (hz : s.resetSeen = true) (hc : 5 ≤ s.code.toNat) :
    readRegister .status s = .fault .reservedCode := by
  simp [readRegister, hz, hc]

/-- A step whose READ faults is that fault: the block's cycle does not follow. -/
theorem stepWith_read_of_fault {p : Params} {s : State} {r : Register} {rest : List HostMove} {x : Fault}
    (hs : s.script = .read r :: rest) (h : readRegister r { s with script := rest } = .fault x) :
    stepWith p s = .fault x := by
  simp only [stepWith, hs, h, andThen_fault]

/-! ## The statements -/

/-- Settles O16: each rejection class executes as the commit of its reason (R217), and that writes these fields alone. -/
theorem rejectionClassesCommitTheirCode : Obligations.RejectionClassesCommitTheirCode := fun s =>
  ⟨fun rows bits frame => exec_eq_commit (.rejRows rows bits frame) s,
    fun bits frame => exec_eq_commit (.rejLen bits frame) s,
    fun byte0 rest => exec_eq_commit (.rejPre byte0 rest) s,
    fun f => exec_eq_commit (.rejCrc f) s⟩

/-- Settles O33: a commit writes the code of its outcome, and the READ of a reserved code ends the step in a fault. -/
theorem reasonCodesAndReservedCodes : Obligations.ReasonCodesAndReservedCodes := by
  refine ⟨⟨rfl, rfl, rfl, rfl⟩, commitAccepted_code, commitRejected_code, fun p s rest hz hc => ?_⟩
  have hreserved : 5 ≤ s.code.toNat := (five_le_code_iff s.code).mpr hc
  exact stepWith_read_of_fault rfl (readRegister_status_of_reserved hz hreserved)

end Sys2Proof.Machine
end

