-- ==== Sys2Proof/Proofs/ResetAndHazards.lean ====
section
/-! PROOFS. Reset and hazards (70_reset_and_hazards.md): the cycle of an IDLE block by its START port, and the statement
O57. -/

namespace Sys2Proof.Machine

/-! ## The cycle of an IDLE block out of reset -/

/-- Without a START an IDLE block stays as it is. -/
theorem blockCycle_of_idle_quiet {p : Params} {s : State} (hr : s.pins.rst = false) (hz : s.resetSeen = true)
    (hp : s.phase = .idle) (hs : s.pins.start = false) : blockCycle p s = .next s := by
  simp [blockCycle_of_running hr hz, runningCycle, hp, hs]

/-- An IDLE block takes a START (40_frame_decoder.md R100). -/
theorem blockCycle_of_idle_start {p : Params} {s : State} (hr : s.pins.rst = false) (hz : s.resetSeen = true)
    (hp : s.phase = .idle) (hs : s.pins.start = true) : blockCycle p s = startCycle p s := by
  simp [blockCycle_of_running hr hz, runningCycle, hp, hs]

/-- With a latency other than 0 the commit of a START is still to come. -/
theorem startCycle_of_latency_succ {p : Params} {s : State} {left : Nat} (h : p.latency s.latencyIdx = left + 1) :
    startCycle p s = .next (takeStart (left + 1) { s with latencyIdx := s.latencyIdx + 1 }) := by
  simp only [startCycle, h]

/-! ## The statements -/

/-- Settles O57: the cycle with RST high is `applyReset`, and what that leaves is IDLE and has been reset, so that with RST
low again its cycle is decided by START alone. -/
theorem rstHoldsTheBlockInReset : Obligations.RstHoldsTheBlockInReset := by
  intro p s hrst
  have hstart : blockCycle p (withRst false (withStart true (applyReset s))) =
      startCycle p (withRst false (withStart true (applyReset s))) := blockCycle_of_idle_start rfl rfl rfl rfl
  refine ⟨applyReset s, blockCycle_of_rst hrst, rfl, statusWord_applyReset s, resultOf_of_not_done rfl,
    blockCycle_of_idle_quiet rfl rfl rfl rfl, hstart, fun left hlatency => ?_⟩
  exact ⟨_, hstart.trans (startCycle_of_latency_succ hlatency), rfl⟩

end Sys2Proof.Machine
end

