-- ==== Sys2Proof/Proofs/RoundTrip.lean ====
section
/-! PROOFS. The encoder against the decoder (30_encoding.md sections 1, 2 and 4), the classes against `DecodeFrame`, what a
class does not read, and the statements O1, O2, O5, O6, O7, O18, O20, O23 and O29. -/

namespace Sys2Proof.Machine

/-! ## A word and its parts -/

/-- A word is made of its three ports: the inverse of the `_txWord` lemmas. -/
@[simp] theorem txWord_fields (w : TxWord) : txWord (rowsField w) (bitsField w) (frameField w) = w := by
  rw [txWord, rowsField, bitsField, frameField, BitVec.extractLsb'_append_extractLsb'_eq_extractLsb' (by decide),
    BitVec.extractLsb'_append_extractLsb'_eq_extractLsb' (by decide)]
  exact BitVec.extractLsb'_eq_self

/-- The transmitted CRC of the frame of a set of fields is the field `c`. -/
@[simp] theorem byteAt_cCrcPos_frameOf (f : FrameFields) : byteAt (frameOf f) cCrcPos = f.c :=
  Laws.TableMatch.low_byte_of_frameOf f

/-- The fields of a frame hold its transmitted CRC as `c`. -/
theorem fieldsOf_c (frame : Frame) : (fieldsOf frame).c = byteAt frame cCrcPos := rfl

/-! ## Decoding an encoded instruction -/

/-- A word of one row of 80 bits is decided by the preamble and the CRC of its frame (30_encoding.md R75). -/
theorem classifyWith_txWord_one_eighty (crc : Crc8Fn) (frame : Frame) :
    classifyWith crc (txWord cRows cFrameBits frame) =
      if byteAt frame 0 ≠ cPreamble then .rejPre (byteAt frame 0) (frame.extractLsb' 0 72)
      else if crcCalc crc frame ≠ byteAt frame cCrcPos then .rejCrc (fieldsOf frame)
      else .accept (fieldsOf frame) := by
  simp [classifyWith]

/-- The word of the frame of a set of fields is in one of the two classes behind the preamble gate, with those fields. -/
theorem classifyWith_txWord_frameOf (crc : Crc8Fn) (f : FrameFields) :
    classifyWith crc (txWord cRows cFrameBits (frameOf f)) =
      if crcCalc crc (frameOf f) ≠ f.c then .rejCrc f else .accept f := by
  rw [classifyWith_txWord_one_eighty, if_neg (not_not.mpr (Laws.TableMatch.byte0_of_frameOf f)), fieldsOf_frameOf,
    byteAt_cCrcPos_frameOf]

theorem classifyWith_encode {crc : Crc8Fn} {i : Instr} (h : i.wellFormedWith crc = true) :
    classifyWith crc (encode i) = i := by
  cases i with
  | rejRows rows bits frame =>
    have hrows : rows ≠ cRows := by simpa [Instr.wellFormedWith] using h
    simp [encode, classifyWith, hrows]
  | rejLen bits frame =>
    have hbits : bits ≠ cFrameBits := by simpa [Instr.wellFormedWith] using h
    simp [encode, classifyWith, hbits]
  | rejPre byte0 rest =>
    have hpre : byte0 ≠ cPreamble := by simpa [Instr.wellFormedWith] using h
    rw [encode, classifyWith_txWord_one_eighty, Laws.TableMatch.byte0_of_append, if_pos hpre,
      BitVec.extractLsb'_append_eq_right]
  | rejCrc f =>
    have hcrc : f.c ≠ crcCalc crc (frameOf f) := by simpa [Instr.wellFormedWith] using h
    rw [encode, classifyWith_txWord_frameOf, if_pos hcrc.symm]
  | accept f =>
    have hcrc : f.c = crcCalc crc (frameOf f) := by simpa [Instr.wellFormedWith] using h
    rw [encode, classifyWith_txWord_frameOf, if_neg (not_not.mpr hcrc.symm)]

/-! ## Encoding the class of a word -/

/-- Encoding the class of any word gives the word back: the ports a class leaves out are those its conditions fix. -/
theorem encode_classifyWith (crc : Crc8Fn) (w : TxWord) : encode (classifyWith crc w) = w := by
  simp only [classifyWith]
  split_ifs with hrows hbits hpre hcrc
  · exact txWord_fields w
  · rw [encode, ← not_not.mp hrows, txWord_fields]
  · rw [encode, ← Laws.TableMatch.frame_split, ← not_not.mp hrows, ← not_not.mp hbits, txWord_fields]
  · rw [encode, frameOf_fieldsOf (not_not.mp hpre), ← not_not.mp hrows, ← not_not.mp hbits, txWord_fields]
  · rw [encode, frameOf_fieldsOf (not_not.mp hpre), ← not_not.mp hrows, ← not_not.mp hbits, txWord_fields]

/-- The class of a word meets its own condition. -/
theorem wellFormedWith_classifyWith (crc : Crc8Fn) (w : TxWord) :
    (classifyWith crc w).wellFormedWith crc = true := by
  simp only [classifyWith]
  split_ifs with hrows hbits hpre hcrc
  · simpa [Instr.wellFormedWith] using hrows
  · simpa [Instr.wellFormedWith] using hbits
  · simpa [Instr.wellFormedWith] using hpre
  · simpa [Instr.wellFormedWith, frameOf_fieldsOf (not_not.mp hpre), fieldsOf_c] using Ne.symm hcrc
  · simpa [Instr.wellFormedWith, frameOf_fieldsOf (not_not.mp hpre), fieldsOf_c] using (not_not.mp hcrc).symm

/-! ## The classes as `DecodeFrame` -/

theorem exec_classifyWith_txWord (crc : Crc8Fn) (rows bits : BitVec 16) (frame : Frame) (s : State) :
    exec (classifyWith crc (txWord rows bits frame)) s = .next (commit (decodeFrameWith crc rows bits frame) s) := by
  rw [exec_eq_commit, classVerdict_classifyWith_txWord]

/-! ## Injectivity of the scalers -/

theorem scaleTemp_injective : Function.Injective scaleTemp := by
  intro a b h
  have htemp := congrArg BitVec.toInt h
  rw [scaleTemp_toInt, scaleTemp_toInt] at htemp
  exact BitVec.eq_of_toNat_eq (by omega)

theorem scaleWind_injective : Function.Injective scaleWind := by
  intro a b h
  have hwind := congrArg BitVec.toNat h
  rw [scaleWind_toNat, scaleWind_toNat] at hwind
  exact BitVec.eq_of_toNat_eq (by omega)

theorem scaleRain_injective : Function.Injective scaleRain := by
  intro a b h
  have hrain := congrArg BitVec.toNat h
  rw [scaleRain_toNat, scaleRain_toNat] at hrain
  exact BitVec.eq_of_toNat_eq (by omega)

/-- The nibbles 0 and 2 are both OK. -/
theorem classBatt_not_injective : ¬ Function.Injective classBatt := fun hinj =>
  absurd (@hinj 0 2 rfl) (by decide)

/-! ## The statements -/

/-- Settles O1: the class of an encoded word is read off its ports, class by class. -/
theorem decodeOfEncodeIsIdentity : Obligations.DecodeOfEncodeIsIdentity := fun _ _ => classifyWith_encode

/-- Settles O2: in each of R75's five cases. -/
theorem encodeOfDecodeIsIdentity : Obligations.EncodeOfDecodeIsIdentity := fun crc w =>
  ⟨encode_classifyWith crc w, wellFormedWith_classifyWith crc w⟩

/-- Settles O7: a class executes as the commit of its outcome, which is that of `DecodeFrame`. -/
theorem classesRefineDecodeFrame : Obligations.ClassesRefineDecodeFrame := exec_classifyWith_txWord

/-- Settles O23: O4's fact about byte 7, the fields being the slices. -/
theorem batteryAndRainPartitionByteSeven : Obligations.BatteryAndRainPartitionByteSeven := byteAt_seven_eq

/-- Settles O29: the exact values of the scalers determine the raw value; the classifier takes 0 and 2 alike. -/
theorem scalersAreInjectiveExceptBattery : Obligations.ScalersAreInjectiveExceptBattery :=
  ⟨scaleTemp_injective, Function.injective_id, scaleWind_injective, scaleRain_injective, classBatt_not_injective⟩

/-- Settles O5: each word is the encoding of its class, which is well-formed. -/
theorem specWordsDecodeToTheirClasses : Obligations.SpecWordsDecodeToTheirClasses :=
  ⟨classifyWith_encode
      (i := .accept { u := 0, s := 0, t := 0x28A, h := 60, a := 50, g := 50, b := 0, r := 0x310, c := 0xAE })
      (by decide +kernel),
    classifyWith_encode (i := .rejRows 2 80 0xff00028a3c32320310ae) (by decide),
    classifyWith_encode (i := .rejLen 79 0xff00028a3c32320310ae) (by decide),
    classifyWith_encode (i := .rejPre 0xFE 0x00028a3c32320310ae) (by decide),
    classifyWith_encode
      (i := .rejCrc { u := 0, s := 0, t := 0x28A, h := 60, a := 50, g := 50, b := 0, r := 0x310, c := 0xAF })
      (by decide +kernel)⟩

/-- Settles O6: the gate that fails first is the last to read anything. -/
theorem dontCareBitsDoNotMatter : Obligations.DontCareBitsDoNotMatter := by
  intro crc s rows bits bits' frame frame'
  simp only [exec_classifyWith_txWord, decodeFrameWith_eq]
  refine ⟨fun hrows => ?_, fun hbits => ?_, fun hpre hsame => ?_⟩
  · rw [if_pos hrows, if_pos hrows]
  · simp only [if_pos hbits]
  · simp only [hsame, if_pos hpre]

/-- Settles O18: every class executes as a commit, and a commit keeps these fields. -/
theorem decodeWritesOnlyOutputsAndPhase : Obligations.DecodeWritesOnlyOutputsAndPhase := fun i s =>
  ⟨_, exec_eq_commit i s, commit_pins _ s, commit_script _ s, commit_answers _ s, commit_resetSeen _ s,
    commit_latencyIdx _ s, commit_phase _ s, commit_done _ s⟩

/-- Settles O20: the record that ACCEPT commits is made of the six other fields. -/
theorem ignoredFieldsFeedNoRegister : Obligations.IgnoredFieldsFeedNoRegister := fun f u x c s =>
  (acceptCommitsTheRecord { f with u := u, s := x, c := c } s).trans (acceptCommitsTheRecord f s).symm

end Sys2Proof.Machine
end

