-- ==== Sys2Proof/Proofs/Invariant.lean ====
section
/-! PROOFS. The invariant of Safety.lean, kept by each operation and so by every step; who writes the output registers; and
the statements O45, O46, O47 and O48. -/

namespace Sys2Proof.Machine

/-! ## The invariant, operation by operation -/

/-- The invariant reads the block's own registers alone. -/
theorem inv_of_sameBlock {s t : State} (h : SameBlock s t) (hs : Inv s) : Inv t := by
  rw [h]
  exact hs

theorem busyOk_of_idle {s : State} (h : s.phase = .idle) : BusyOk s := by
  simp [BusyOk, h, isBusy]

theorem recordOk_applyReset (s : State) : RecordOk (applyReset s) := by
  simp [RecordOk, recordOf]

theorem inv_applyReset (s : State) : Inv (applyReset s) := fun _ =>
  ⟨busyOk_of_idle rfl, by simp [StatusOk], recordOk_applyReset s⟩

/-- R34 and R35: the range and the step of the wind registers. -/
theorem scaleWind_range (raw : BitVec 8) : (scaleWind raw).toNat ≤ 312120 ∧ (scaleWind raw).toNat % 1224 = 0 := by
  have hraw := raw.isLt
  rw [scaleWind_toNat]
  omega

/-- R36: the range and the step of the rain register. -/
theorem scaleRain_range (raw : BitVec 12) : (scaleRain raw).toNat ≤ 12285 ∧ (scaleRain raw).toNat % 3 = 0 := by
  have hraw := raw.isLt
  rw [scaleRain_toNat]
  omega

/-- A rejection leaves the zeros of a reset in the record registers (60_exceptions.md R217). -/
theorem recordOk_commitRejected (r : Reason) (s : State) : RecordOk (commitRejected r s) := recordOk_applyReset s

theorem recordOk_commit_classVerdict (i : Instr) (s : State) : RecordOk (commit (classVerdict i) s) := by
  cases i with
  | rejRows rows bits frame => exact recordOk_commitRejected _ s
  | rejLen bits frame => exact recordOk_commitRejected _ s
  | rejPre byte0 rest => exact recordOk_commitRejected _ s
  | rejCrc f => exact recordOk_commitRejected _ s
  | accept f =>
    exact ⟨scaleTemp_range f.t, scaleWind_range f.a, scaleWind_range f.g, scaleRain_range f.r, nofun⟩

theorem statusOk_commit (v : Verdict) (s : State) : StatusOk (commit v s) :=
  ⟨commit_code_le_four v s, (commit_valid_iff_code_eq_zero v s).mp, fun _ => (commit_valid_iff_code_eq_zero v s).mpr⟩

/-- The commit of a class meets the invariant, whatever state it comes from. -/
theorem inv_commit_classVerdict (i : Instr) (s : State) : Inv (commit (classVerdict i) s) := fun _ =>
  ⟨busyOk_of_idle (commit_phase _ s), statusOk_commit _ s, recordOk_commit_classVerdict i s⟩

theorem inv_takeStart {s : State} (left : Nat) (hs : Inv s) : Inv (takeStart (left + 1) s) := by
  intro hz
  obtain ⟨-, ⟨hcode, hvalid, -⟩, hrecord⟩ := hs hz
  exact ⟨⟨fun _ => rfl, by simp⟩, ⟨hcode, hvalid, nofun⟩, hrecord⟩

/-- A decode in progress that comes one step nearer to its commit keeps the invariant. -/
theorem inv_busy_succ {s : State} (left : Nat) {n : Nat} (hp : s.phase = .busy n) (hs : Inv s) :
    Inv { s with phase := .busy (left + 1) } := by
  intro hz
  obtain ⟨⟨hdone, -⟩, hstatus, hrecord⟩ := hs hz
  exact ⟨⟨fun _ => hdone (by rw [hp]; rfl), by simp⟩, hstatus, hrecord⟩

/-! ## The invariant, cycle and step -/

theorem blockCycle_keeps_inv {p : Params} {s t : State} (hs : Inv s) (h : blockCycle p s = .next t) : Inv t := by
  rcases blockCycle_cases h with ⟨-, rfl⟩ | ⟨-, -, -, rfl⟩ | ⟨-, -, hrun⟩
  · exact inv_applyReset s
  · exact hs
  · rcases runningCycle_cases hrun with
      ⟨-, -, rfl⟩ | ⟨-, -, left, -, rfl⟩ | ⟨-, -, -, rfl⟩ | ⟨-, rfl⟩ | ⟨left, hbusy, rfl⟩
    · exact hs
    · exact inv_takeStart left hs
    · exact inv_commit_classVerdict _ _
    · exact inv_commit_classVerdict _ _
    · exact inv_busy_succ left hbusy hs

theorem stepWith_keeps_inv {p : Params} {s t : State} (hs : Inv s) (h : stepWith p s = .next t) : Inv t := by
  rcases stepWith_cases h with ⟨rest, -, rfl⟩ | ⟨n, l, f, rest, -, -, -, rfl⟩ | ⟨s', hsame, hcycle⟩
  · exact inv_applyReset _
  · exact inv_commit_classVerdict _ _
  · exact blockCycle_keeps_inv (inv_of_sameBlock hsame hs) hcycle

/-! ## The writers of the output registers (10_state.md section 3) -/

/-- A commit leaves nothing for the same commit to write. -/
@[simp] theorem commit_commit (v w : Verdict) (s : State) : commit v (commit w s) = commit v s := by
  cases v <;> cases w <;> rfl

theorem outputs_of_sameBlock {s t : State} (h : SameBlock s t) : outputs t = outputs s := by
  rw [h]
  rfl

/-- BUSY in STATUS does not say how many steps are left. -/
theorem outputs_busy_succ {s : State} (left : Nat) {n : Nat} (hp : s.phase = .busy n) :
    outputs { s with phase := .busy (left + 1) } = outputs s := by
  simp [outputs, statusWord, recordOf, hp, isBusy]

/-- The commit of the class of the word on the ports of `s` is the commit of `DecodeFrame` on the ports of the state after
it, which are the same. -/
theorem commit_decodeFrame_of_commit_class (crc : Crc8Fn) (s s' : State) (hpins : s'.pins = s.pins) :
    let t := commit (classVerdict (classifyWith crc (inputWord s))) s'
    commit (decodeFrameWith crc t.pins.rows t.pins.bits t.pins.frame) t = t := by
  simp [inputWord, classVerdict_classifyWith_txWord, hpins]

/-- What a cycle that changes an output register did: reset, the START of a decode, or the commit of one. -/
theorem blockCycle_writes_outputs {p : Params} {s t : State} (h : blockCycle p s = .next t) :
    outputs t = outputs s ∨
    (t.pins.rst = true ∧ applyReset t = t) ∨
    (s.phase = .idle ∧ t.pins.start = true ∧ t.phase ≠ .idle ∧ t.done = false ∧ t.valid = s.valid ∧
      t.code = s.code ∧ recordOf t = recordOf s) ∨
    commit (decodeFrameWith p.crc8Fn t.pins.rows t.pins.bits t.pins.frame) t = t := by
  rcases blockCycle_cases h with ⟨hrst, rfl⟩ | ⟨-, -, -, rfl⟩ | ⟨-, -, hrun⟩
  · exact .inr (.inl ⟨hrst, rfl⟩)
  · exact .inl rfl
  · rcases runningCycle_cases hrun with
      ⟨-, -, rfl⟩ | ⟨hidle, hstart, left, -, rfl⟩ | ⟨-, -, -, rfl⟩ | ⟨-, rfl⟩ | ⟨left, hbusy, rfl⟩
    · exact .inl rfl
    · exact .inr (.inr (.inl ⟨hidle, hstart, nofun, rfl, rfl, rfl, rfl⟩))
    · exact .inr (.inr (.inr (commit_decodeFrame_of_commit_class p.crc8Fn s _ rfl)))
    · exact .inr (.inr (.inr (commit_decodeFrame_of_commit_class p.crc8Fn s s rfl)))
    · exact .inl (outputs_busy_succ left hbusy)

/-! ## The statements -/

/-- Settles O46: from each of the three things a step can do. -/
theorem everyStepKeepsTheInvariant : Obligations.EveryStepKeepsTheInvariant :=
  ⟨fun _ _ _ => stepWith_keeps_inv, fun _ _ => stepWith_keeps_inv⟩

/-- Settles O45: the state after reset is what RST leaves of itself. -/
theorem invariantHoldsAtReset : Obligations.InvariantHoldsAtReset := inv_applyReset State.reset

/-- Settles O47: the one fault needs a reserved CODE, which the invariant excludes. -/
theorem noStepFaultsFromTheInvariant : Obligations.NoStepFaultsFromTheInvariant := by
  intro p s x hs h
  obtain ⟨hreserved, hz⟩ := stepWith_eq_fault h
  obtain ⟨-, ⟨hcode, -, -⟩, -⟩ := hs hz
  omega

/-- Settles O48: the two transactions are a reset and a commit; any other step is a cycle after a move that touches no
register of the block. -/
theorem onlyResetStartAndCommitWriteOutputs : Obligations.OnlyResetStartAndCommitWriteOutputs := by
  intro p s t h
  rcases stepWith_cases h with ⟨rest, hs, rfl⟩ | ⟨n, l, f, rest, -, -, -, rfl⟩ | ⟨s', hsame, hcycle⟩
  · exact .inr (.inl ⟨.inr (by rw [hs]; rfl), rfl⟩)
  · exact .inr (.inr (.inr (by simp [classVerdict_classifyWith_txWord])))
  · rw [← outputs_of_sameBlock hsame]
    rcases blockCycle_writes_outputs hcycle with hout | ⟨hrst, hreset⟩ | hstart | hcommit
    · exact .inl hout
    · exact .inr (.inl ⟨.inl hrst, hreset⟩)
    · rw [hsame] at hstart
      exact .inr (.inr (.inl hstart))
    · exact .inr (.inr (.inr hcommit))

end Sys2Proof.Machine
end

