-- ==== Sys2Proof/Proofs/HostMoves.lean ====
section
/-! PROOFS. One step by the host's move in it (30_encoding.md section 7, 70_reset_and_hazards.md): no move, DECODE, READ,
driving the inputs, RST; and the statements O8, O9, O32, O34, O40, O41, O42 and O43. -/

namespace Sys2Proof.Machine

/-! ## No move -/

theorem stepWith_of_script_nil {p : Params} {s : State} (hs : s.script = []) : stepWith p s = blockCycle p s := by
  simp only [stepWith, hs]

/-- With latency 0 a START commits in its own cycle. -/
theorem startCycle_of_latency_zero {p : Params} {s : State} (h : p.latency s.latencyIdx = 0) :
    startCycle p s = runDecode p (takeStart 0 { s with latencyIdx := s.latencyIdx + 1 }) := by
  simp only [startCycle, h]

/-! ## DECODE -/

/-- The state in which a DECODE transaction executes the class of its word: the inputs driven, START low. -/
theorem withStart_withInputs {s : State} (n l : Nat) (f : Frame) (hr : s.pins.rst = false) :
    withStart false (withInputs n l f s) = { s with
      pins := { rst := false, start := false, rows := saturate16 n, bits := saturate16 l, frame := f } } := by
  simp [withStart, withInputs, drivenPins, hr]

theorem stepWith_decode_eq_exec {p : Params} {s : State} {n l : Nat} {f : Frame} {rest : List HostMove}
    (hs : s.script = .decode n l f :: rest) (hp : s.phase = .idle) (hr : s.pins.rst = false)
    (hz : s.resetSeen = true) :
    stepWith p s = exec (classifyWith p.crc8Fn (txWord (saturate16 n) (saturate16 l) f)) { s with
      script := rest,
      pins := { rst := false, start := false, rows := saturate16 n, bits := saturate16 l, frame := f } } := by
  rw [stepWith_decode_of_ready hs (readyForDecode_of_idle hp hr) hz, exec_eq_commit,
    withStart_withInputs (s := { s with script := rest }) n l f hr]

/-- A DECODE waits, unbegun, until the block is ready. -/
theorem stepWith_decode_of_not_ready {p : Params} {s : State} {n l : Nat} {f : Frame} {rest : List HostMove}
    (hs : s.script = .decode n l f :: rest) (hready : readyForDecode s = false) :
    stepWith p s = blockCycle p s := by
  simp [stepWith, hs, hready]

/-- Before the first reset no decode is in progress, whatever PHASE holds (70_reset_and_hazards.md R243). -/
theorem decodeInProgress_of_not_resetSeen {s : State} (hz : s.resetSeen = false) : decodeInProgress s = false := by
  simp [decodeInProgress, hz]

/-- While RST is high a decode is abandoned (70_reset_and_hazards.md R240). -/
theorem decodeInProgress_of_rst {s : State} (hr : s.pins.rst = true) : decodeInProgress s = false := by
  simp [decodeInProgress, hr]

theorem readyForDecode_of_rst {s : State} (hr : s.pins.rst = true) : readyForDecode s = false := by
  simp [readyForDecode, hr]

theorem stepWith_decode_of_powerUp {p : Params} {s : State} {n l : Nat} {f : Frame} {rest : List HostMove}
    (hs : s.script = .decode n l f :: rest) (hz : s.resetSeen = false) (hr : s.pins.rst = false) :
    stepWith p s = .refused .startBeforeReset := by
  have hready : readyForDecode s = true := by simp [readyForDecode, decodeInProgress_of_not_resetSeen hz, hr]
  simp [stepWith, hs, hready, decodeTransaction, hz]

/-! ## READ -/

/-- A READ that answers is one cycle of the block after the answer. -/
theorem stepWith_read_of_readable {p : Params} {s : State} {r : Register} {rest : List HostMove}
    (hs : s.script = .read r :: rest) (hz : s.resetSeen = true) (hc : r = .status → s.code.toNat ≤ 4) :
    stepWith p s = blockCycle p { afterMove (.read r) s with script := rest } := by
  simp only [stepWith, hs, readRegister_of_readable (s := { s with script := rest }) hz hc, andThen_next]
  cases r <;> rfl

theorem stepWith_read_of_powerUp {p : Params} {s : State} {r : Register} {rest : List HostMove}
    (hs : s.script = .read r :: rest) (hz : s.resetSeen = false) : stepWith p s = .refused .readBeforeReset := by
  simp [stepWith, hs, readRegister, hz]

/-! ## Driving the inputs -/

theorem drivenPins_eq_iff {n l : Nat} {f : Frame} {p : Pins} :
    drivenPins n l f p = p ↔ saturate16 n = p.rows ∧ saturate16 l = p.bits ∧ f = p.frame := by
  cases p
  simp [drivenPins]

/-- A change of an input during a decode is refused (92_eei_decisions.md D12). -/
theorem driveInputs_of_changed {n l : Nat} {f : Frame} {s : State} (hd : decodeInProgress s = true)
    (hne : drivenPins n l f s.pins ≠ s.pins) : driveInputs n l f s = .refused .inputChangedWhileBusy := by
  simp [driveInputs, hd, hne]

theorem withInputs_of_same {n l : Nat} {f : Frame} {s : State} (h : drivenPins n l f s.pins = s.pins) :
    withInputs n l f s = s := by
  rw [withInputs, h]

/-! ## RST -/

/-- A cycle with RST and START low leaves an IDLE block as it is, before the first reset and after it. -/
theorem blockCycle_of_idle_low {p : Params} {s : State} (hr : s.pins.rst = false) (hp : s.phase = .idle)
    (hs : s.pins.start = false) : blockCycle p s = .next s := by
  cases hz : s.resetSeen with
  | false => simp [blockCycle, powerUpCycle, hr, hz, hs]
  | true => exact blockCycle_of_idle_quiet hr hz hp hs

/-- A move at a port that leaves RST high makes the step a reset. -/
theorem stepWith_portMove_of_rst {p : Params} {s : State} {m : HostMove} {rest : List HostMove}
    (hs : s.script = m :: rest) (hm : portMove m = true) (hr : (afterMove m s).pins.rst = true) :
    stepWith p s = .next (applyReset { afterMove m s with script := rest }) := by
  have hdrive : ∀ n l f, m = .drive n l f → decodeInProgress s = false := by
    rintro n l f rfl
    exact decodeInProgress_of_rst hr
  rw [stepWith_of_portMove hs hm hdrive]
  exact blockCycle_of_rst hr

/-! ## Before the first reset -/

theorem resultOf_of_powerUp {s : State} (hz : s.resetSeen = false) : resultOf s = .noResult := by
  simp [resultOf, hz]

/-- A move at a port that leaves START high and RST low is refused as a START before the first reset. -/
theorem stepWith_portMove_of_powerUp_start {p : Params} {s : State} {m : HostMove} {rest : List HostMove}
    (hz : s.resetSeen = false) (hs : s.script = m :: rest) (hm : portMove m = true)
    (hr : (afterMove m s).pins.rst = false) (hstart : (afterMove m s).pins.start = true) :
    stepWith p s = .refused .startBeforeReset := by
  have hz' : (afterMove m s).resetSeen = false := by cases m <;> exact hz
  rw [stepWith_of_portMove hs hm fun _ _ _ _ => decodeInProgress_of_not_resetSeen hz]
  exact blockCycle_of_powerUp_start hr hz' hstart

/-- A step of a block not yet reset resets it or leaves its registers alone: no decode commits. -/
theorem stepWith_of_powerUp {p : Params} {s t : State} (hz : s.resetSeen = false) (h : stepWith p s = .next t) :
    (t.resetSeen = true ∧ applyReset t = t) ∨
    (t.resetSeen = false ∧ t.phase = s.phase ∧ outputs t = outputs s ∧ resultOf t = .noResult) := by
  rcases stepWith_cases h with ⟨rest, -, rfl⟩ | ⟨n, l, f, rest, -, -, hz', -⟩ | ⟨s', hsame, hcycle⟩
  · exact .inl ⟨rfl, rfl⟩
  · simp [hz] at hz'
  · have hseen : s'.resetSeen = false := by rw [hsame]; exact hz
    rcases blockCycle_cases hcycle with ⟨-, rfl⟩ | ⟨-, -, -, rfl⟩ | ⟨-, hz', -⟩
    · exact .inl ⟨rfl, rfl⟩
    · exact .inr ⟨hseen, by rw [hsame], outputs_of_sameBlock hsame, resultOf_of_powerUp hseen⟩
    · simp [hseen] at hz'

/-! ## The statements -/

/-- Settles O8: a DECODE, the last cycle of a decode and a START with latency 0 each run the decode of the word on the
ports. -/
theorem stepRunsTheDecodedInstruction : Obligations.StepRunsTheDecodedInstruction := by
  refine ⟨fun _ => rfl, ?_, ?_, ?_⟩
  · rintro p s n l f rest i hs hp hr hz rfl
    exact stepWith_decode_eq_exec hs hp hr hz
  · rintro p s left i hs hr hz hp hleft rfl
    rw [stepWith_of_script_nil hs, blockCycle_of_running hr hz, runningCycle_of_busy_le_one hp hleft,
      exec_classifyWith_txWord]
  · rintro p s i hs hr hstart hp hz hlatency rfl
    rw [stepWith_of_script_nil hs, blockCycle_of_idle_start hr hz hp hstart, startCycle_of_latency_zero hlatency]
    rfl

/-- Settles O9: the word placed is a DECODE of its own ports, which no count saturates. -/
theorem fetchedWordRunsNext : Obligations.FetchedWordRunsNext := by
  intro s nbits w i hi
  have hclass : classify (wordOfBits nbits w) = i := by
    simp only [decodeTableWord, Option.ite_none_right_eq_some, Option.some.injEq] at hi
    exact hi.2
  have hstep := stepWith_decode_eq_exec (p := machineParams) (s := s.withFetchWord nbits w) rfl rfl rfl rfl
  simp only [saturate16_of_toNat, txWord_fields] at hstep
  rw [← hclass]
  exact hstep

/-- Settles O32: a READ that answers is a cycle of the block, as waiting is, and an IDLE block stays as it is. -/
theorem readHasNoSideEffect : Obligations.ReadHasNoSideEffect := by
  intro p s r rest hz hc
  have hread := stepWith_read_of_readable (p := p) (s := { s with script := .read r :: rest }) rfl hz hc
  have hvalue : registerValue r { s with script := .read r :: rest } = registerValue r s := by cases r <;> rfl
  simp only [afterMove, hvalue] at hread
  exact ⟨hread, fun hp hr hs => hread.trans (blockCycle_of_idle_quiet hr hz hp hs)⟩

/-- Settles O34: the cycle of an IDLE block takes the START. -/
theorem startSetsBusyAndClearsDone : Obligations.StartSetsBusyAndClearsDone := by
  intro p s left hs hr hstart hp hz hlatency
  rw [stepWith_of_script_nil hs, blockCycle_of_idle_start hr hz hp hstart, startCycle_of_latency_succ hlatency]
  rfl

/-- Settles O40: every move that leaves RST high ends in the cycle of a block held in reset. -/
theorem resetFromEveryState : Obligations.ResetFromEveryState := by
  refine ⟨fun _ => rfl, ?_, fun p s m rest => stepWith_portMove_of_rst, ?_, ?_, ?_, ?_⟩
  · intro p s hs hr
    rw [stepWith_of_script_nil hs, blockCycle_of_rst hr]
  · intro p s r rest hs hr hz hc
    rw [stepWith_read_of_readable hs hz hc]
    exact blockCycle_of_rst hr
  · intro p s n l f rest hs hr
    rw [stepWith_decode_of_not_ready hs (readyForDecode_of_rst hr), blockCycle_of_rst hr]
  · intro p s rest hs
    simp only [stepWith, hs]
  · intro p s rest hs hp hstart
    rw [stepWith_of_portMove hs rfl nofun]
    exact blockCycle_of_idle_low rfl hp hstart

/-- Settles O41: the state after reset is a fixed point of RST, and its values are read off. -/
theorem resetStateHoldsTheResetValues : Obligations.ResetStateHoldsTheResetValues :=
  ⟨rfl, statusWord_applyReset State.reset, rfl, resultOf_of_not_done rfl, rfl, rfl, rfl⟩

/-- Settles O42: each START and READ by its refusal, and a step that answers by what it can do. -/
theorem beforeTheFirstResetStartAndReadAreRefused : Obligations.BeforeTheFirstResetStartAndReadAreRefused := by
  intro p s hz
  refine ⟨fun hs hr hstart => ?_, fun m rest => stepWith_portMove_of_powerUp_start hz,
    fun n l f rest hs hr => stepWith_decode_of_powerUp hs hz hr, fun r rest hs => stepWith_read_of_powerUp hs hz,
    resultOf_of_powerUp hz, fun t => stepWith_of_powerUp hz, fun rest hs => ?_⟩
  · rw [stepWith_of_script_nil hs, blockCycle_of_powerUp_start hr hz hstart]
  · exact ⟨_, by simp only [stepWith, hs]; rfl, rfl⟩

/-- Settles O43: a decode in progress refuses a change, equal values change nothing, and without a decode in progress the
inputs are driven. -/
theorem inputChangeWhileBusyIsRefused : Obligations.InputChangeWhileBusyIsRefused := by
  intro p s left n l f rest hp
  have hdrive : stepWith p { s with script := .drive n l f :: rest } =
      andThen (driveInputs n l f { s with script := rest }) (blockCycle p) := rfl
  rw [hdrive]
  refine ⟨fun hz hr hne => ?_, fun hrows hbits hframe => ?_, fun hnot => ?_⟩
  · have hbusy : decodeInProgress { s with script := rest } = true := by simp [decodeInProgress, isBusy, hp, hz, hr]
    rw [driveInputs_of_changed hbusy (by rw [Ne, drivenPins_eq_iff]; tauto), andThen_refused]
  · have hsame : drivenPins n l f s.pins = s.pins := drivenPins_eq_iff.mpr ⟨hrows, hbits, hframe⟩
    rw [driveInputs_of_same (s := { s with script := rest }) hsame, andThen_next,
      withInputs_of_same (s := { s with script := rest }) hsame]
    rfl
  · have hfree : decodeInProgress { s with script := rest } = false :=
      hnot.elim (fun hz => decodeInProgress_of_not_resetSeen hz) (fun hr => decodeInProgress_of_rst hr)
    rw [driveInputs_of_not_inProgress hfree, andThen_next]
    rfl

end Sys2Proof.Machine
end

