-- ==== Sys2Proof/Proofs/Latency.lean ====
section
/-! PROOFS. A decode in progress over many steps (70_reset_and_hazards.md sections 3 and 4): what the host's moves can change
meanwhile, the run from a START to its commit, the outputs between decodes, and the statements O36, O37, O38, O39 and O49. -/

namespace Sys2Proof.Machine

/-! ## The host's move before the cycle -/

/-- A step that answers and is no transaction is one cycle after the host's move; driving the inputs during a decode has then
changed nothing (92_eei_decisions.md D12). -/
theorem blockCycle_afterHead_of_stepWith {p : Params} {s t : State} (h : stepWith p s = .next t)
    (hreset : s.script.head? ≠ some .reset) (hdecode : ∀ n l f, s.script.head? ≠ some (.decode n l f)) :
    blockCycle p { afterHead s with script := s.script.tail } = .next t ∧
    ∀ n l f, s.script.head? = some (.drive n l f) → decodeInProgress s = false ∨ drivenPins n l f s.pins = s.pins := by
  match hs : s.script with
  | [] =>
    rw [stepWith_of_script_nil hs] at h
    have hself : { afterHead s with script := [] } = s := by simp only [afterHead, hs]; rw [← hs]
    exact ⟨by rw [List.tail_nil, hself]; exact h, nofun⟩
  | m :: rest =>
    rw [hs] at hreset hdecode
    simp only [stepWith, hs] at h
    simp only [afterHead, hs, List.tail_cons, List.head?_cons, Option.some.injEq]
    cases m with
    | reset => exact absurd rfl hreset
    | decode n l f => exact absurd rfl (hdecode n l f)
    | read r =>
      obtain ⟨s', hread, hcycle⟩ := andThen_eq_next h
      obtain ⟨rfl, -⟩ := readRegister_eq_next hread
      have hvalue : registerValue r { s with script := rest } = registerValue r s := by cases r <;> rfl
      rw [hvalue] at hcycle
      exact ⟨hcycle, nofun⟩
    | drive n l f =>
      obtain ⟨s', hdrive, hcycle⟩ := andThen_eq_next h
      obtain ⟨rfl, hkept⟩ := driveInputs_eq_next hdrive
      refine ⟨hcycle, ?_⟩
      rintro n' l' f' ⟨⟩
      exact hkept
    | setStart | setRst | wait => exact ⟨h, nofun⟩

/-- No move at the ports writes a register of the block. -/
theorem sameBlock_afterHead (s : State) : SameBlock s (afterHead s) := by
  match hs : s.script with
  | [] => simp only [afterHead, hs]; rfl
  | m :: rest => simp only [afterHead, hs]; cases m <;> rfl

theorem afterHead_quiet {s : State} (hr : s.pins.rst = false) (hstart : s.pins.start = false)
    (hquiet : ∀ m, s.script.head? = some m → quietMove m = true) :
    (afterHead s).pins.rst = false ∧ (afterHead s).pins.start = false := by
  match hs : s.script with
  | [] => simp [afterHead, hs, hr, hstart]
  | m :: rest =>
    have hm : quietMove m = true := hquiet m (by rw [hs]; rfl)
    simp only [afterHead, hs]
    cases m with
    | setStart v =>
      have hlow : v = false := by simpa [quietMove] using hm
      exact ⟨hr, hlow⟩
    | setRst v =>
      have hlow : v = false := by simpa [quietMove] using hm
      exact ⟨hlow, hstart⟩
    | reset | decode | read | drive | wait => exact ⟨hr, hstart⟩

/-! ## A decode and a host that keeps its duty to it -/

/-- Two states with the same block and the same inputs: they differ at most in START, the script and the answers. -/
def SameDecode (s t : State) : Prop :=
  t = { s with pins := { s.pins with start := t.pins.start }, script := t.script, answers := t.answers }

section
variable {s t : State} (h : SameDecode s t)
include h

theorem SameDecode.phase : t.phase = s.phase := by rw [h]
theorem SameDecode.done : t.done = s.done := by rw [h]
theorem SameDecode.valid : t.valid = s.valid := by rw [h]
theorem SameDecode.code : t.code = s.code := by rw [h]
theorem SameDecode.recordOf : recordOf t = recordOf s := by rw [h]; rfl
theorem SameDecode.pins : t.pins = { s.pins with start := t.pins.start } := by rw [h]
theorem SameDecode.rst : t.pins.rst = s.pins.rst := by rw [h]
theorem SameDecode.resetSeen : t.resetSeen = s.resetSeen := by rw [h]
theorem SameDecode.latencyIdx : t.latencyIdx = s.latencyIdx := by rw [h]

end

theorem SameDecode.trans {s t u : State} (hst : SameDecode s t) (htu : SameDecode t u) : SameDecode s u := by
  rw [SameDecode, htu, hst]

theorem SameDecode.withPhase {s t : State} (h : SameDecode s t) (phase : Phase) :
    SameDecode { s with phase := phase } { t with phase := phase } := by
  rw [SameDecode, h]

/-- `DecodeFrame` on the inputs of a state. -/
def portsVerdict (p : Params) (s : State) : Verdict :=
  decodeFrameWith p.crc8Fn s.pins.rows s.pins.bits s.pins.frame

theorem SameDecode.portsVerdict_eq {s t : State} (h : SameDecode s t) (p : Params) :
    portsVerdict p t = portsVerdict p s := by
  rw [h]
  rfl

/-- The host's duty to a decode is a matter of the inputs alone. -/
theorem SameDecode.keepsDecode_eq {s t : State} (h : SameDecode s t) : keepsDecode t.pins = keepsDecode s.pins := by
  rw [h]
  funext m
  cases m <;> rfl

/-- A host that keeps its duty leaves the decode as it is. -/
theorem sameDecode_afterHead {s : State} (hr : s.pins.rst = false)
    (hk : ∀ m, s.script.head? = some m → keepsDecode s.pins m = true) (script : List HostMove) :
    SameDecode s { afterHead s with script := script } := by
  rw [SameDecode, afterHead_of_keepsDecode hr hk]

/-- A step that answers during a decode, and is no reset, is one cycle from a state with the same decode. -/
theorem stepWith_of_decodeInProgress {p : Params} {s t : State} (hd : decodeInProgress s = true)
    (hr : s.pins.rst = false) (hreset : s.script.head? ≠ some .reset) (hrst : s.script.head? ≠ some (.setRst true))
    (h : stepWith p s = .next t) : ∃ s', SameDecode s s' ∧ blockCycle p s' = .next t := by
  by_cases hdecode : ∃ n l f, s.script.head? = some (.decode n l f)
  · obtain ⟨n, l, f, hhead⟩ := hdecode
    obtain ⟨rest, hs⟩ := List.head?_eq_some_iff.mp hhead
    have hready : readyForDecode s = false := by simp [readyForDecode, hd]
    exact ⟨s, rfl, by rw [← stepWith_decode_of_not_ready hs hready]; exact h⟩
  · have hno : ∀ n l f, s.script.head? ≠ some (.decode n l f) := fun n l f hhead => hdecode ⟨n, l, f, hhead⟩
    obtain ⟨hcycle, hdrive⟩ := blockCycle_afterHead_of_stepWith h hreset hno
    refine ⟨_, sameDecode_afterHead hr (fun m hm => ?_) _, hcycle⟩
    cases m with
    | reset => exact absurd hm hreset
    | decode n l f => exact absurd hm (hno n l f)
    | drive n l f =>
      have hsame : drivenPins n l f s.pins = s.pins := (hdrive n l f hm).resolve_left (by simp [hd])
      simpa [keepsDecode, and_assoc] using drivenPins_eq_iff.mp hsame
    | setRst v =>
      cases v with
      | true => exact absurd hm hrst
      | false => rfl
    | read | setStart | wait => rfl

/-! ## The cycles of a decode -/

theorem blockCycle_of_busy_le_one {p : Params} {s : State} {left : Nat} (hr : s.pins.rst = false)
    (hz : s.resetSeen = true) (hp : s.phase = .busy left) (hl : left ≤ 1) :
    blockCycle p s = .next (commit (portsVerdict p s) s) := by
  rw [blockCycle_of_running hr hz, runningCycle_of_busy_le_one hp hl, portsVerdict]

theorem blockCycle_of_busy_add_two {p : Params} {s : State} {left : Nat} (hr : s.pins.rst = false)
    (hz : s.resetSeen = true) (hp : s.phase = .busy (left + 2)) :
    blockCycle p s = .next { s with phase := .busy (left + 1) } := by
  rw [blockCycle_of_running hr hz, runningCycle_of_busy_add_two hp]

/-! ## Runs -/

theorem runWith_succ (p : Params) (k : Nat) (s : State) :
    runWith p (k + 1) s = andThen (stepWith p s) (runWith p k) := rfl

theorem runWith_one (p : Params) (s : State) : runWith p 1 s = stepWith p s := by
  rw [runWith_succ]
  cases stepWith p s <;> rfl

theorem andThen_assoc (o : Host.Outcome State Fault Refusal) (k k' : State → Host.Outcome State Fault Refusal) :
    andThen (andThen o k) k' = andThen o fun s => andThen (k s) k' := by
  cases o <;> rfl

/-- A run of `a + b` steps is one of `a` and then one of `b`. -/
theorem runWith_add (p : Params) (a b : Nat) (s : State) :
    runWith p (a + b) s = andThen (runWith p a s) (runWith p b) := by
  induction a generalizing s with
  | zero => rw [Nat.zero_add]; rfl
  | succ a ih =>
    rw [Nat.succ_add, runWith_succ, runWith_succ, andThen_assoc]
    exact congrArg _ (funext ih)

/-! What holds of the next moves of a script holds of its head, and of what is left of them later. -/

theorem forall_head_of_forall_take {P : HostMove → Prop} {script : List HostMove} {k : Nat}
    (h : ∀ m ∈ script.take (k + 1), P m) : ∀ m, script.head? = some m → P m := by
  intro m hm
  obtain ⟨rest, rfl⟩ := List.head?_eq_some_iff.mp hm
  exact h m (by simp)

theorem forall_take_drop {P : HostMove → Prop} {script : List HostMove} {k j : Nat}
    (h : ∀ m ∈ script.take (k + j), P m) : ∀ m ∈ (script.drop k).take j, P m := by
  intro m hm
  rw [List.take_drop] at hm
  exact h m (List.mem_of_mem_drop hm)

/-- The state in which a START has been taken, `left` steps before its commit. -/
def started (left : Nat) (s : State) : State := takeStart left { s with latencyIdx := s.latencyIdx + 1 }

theorem SameDecode.started {s t : State} (h : SameDecode s t) (left : Nat) :
    SameDecode (started left s) (started left t) := by
  rw [SameDecode, h]
  rfl

/-- The cycle of a START: BUSY, or the commit when its latency is 0. -/
theorem startCycle_eq (p : Params) (s : State) :
    startCycle p s = if p.latency s.latencyIdx = 0 then .next (commit (portsVerdict p s) (started 0 s))
      else .next (started (p.latency s.latencyIdx) s) := by
  cases hlatency : p.latency s.latencyIdx with
  | zero =>
    rw [startCycle_of_latency_zero hlatency, runDecode_eq_commit_decodeFrame]
    rfl
  | succ left =>
    rw [startCycle_of_latency_succ hlatency]
    rfl

/-! ## The host's duty over the coming moves (70_reset_and_hazards.md R244) -/

/-- The host's next `k` moves keep its duty to the decode of the inputs. -/
def KeepsDuty (k : Nat) (s : State) : Prop := ∀ m ∈ s.script.take k, keepsDecode s.pins m = true

theorem KeepsDuty.head {k : Nat} {s : State} (h : KeepsDuty (k + 1) s) :
    ∀ m, s.script.head? = some m → keepsDecode s.pins m = true := forall_head_of_forall_take h

theorem KeepsDuty.of_le {k n : Nat} {s : State} (h : KeepsDuty n s) (hk : k ≤ n) : KeepsDuty k s :=
  fun m hm => h m (List.take_subset_take_left _ hk hm)

/-- What is left of the duty after `j` moves. -/
theorem KeepsDuty.drop {j k : Nat} {s t : State} (h : KeepsDuty (j + k) s) (hsame : SameDecode s t)
    (hdrop : t.script = s.script.drop j) : KeepsDuty k t := by
  rw [KeepsDuty, hsame.keepsDecode_eq, hdrop]
  exact forall_take_drop h

theorem KeepsDuty.tail {k : Nat} {s t : State} (h : KeepsDuty (k + 1) s) (hsame : SameDecode s t)
    (htail : t.script = s.script.tail) : KeepsDuty k t :=
  KeepsDuty.drop (j := 1) (by rw [Nat.add_comm]; exact h) hsame (by rw [List.drop_one, htail])

/-! ## From a START to its commit, the host keeping its duty -/

/-- While the host keeps its duty, a step is one cycle from a state with the same decode. -/
theorem stepWith_of_duty (p : Params) {s : State} (hr : s.pins.rst = false) (hz : s.resetSeen = true)
    (hc : s.code.toNat ≤ 4) (hk : ∀ m, s.script.head? = some m → keepsDecode s.pins m = true) :
    ∃ t, stepWith p s = blockCycle p t ∧ SameDecode s t ∧ t.script = s.script.tail ∧
      t.pins.start = (afterHead s).pins.start :=
  ⟨_, stepWith_of_keepsDecode hz hc hk, sameDecode_afterHead hr hk s.script.tail, rfl, rfl⟩

/-- While the host keeps its duty, `k` steps of a decode take `k` from the steps left. -/
theorem runWith_of_busy (p : Params) (left : Nat) {k : Nat} {s : State} (hr : s.pins.rst = false)
    (hz : s.resetSeen = true) (hc : s.code.toNat ≤ 4) (hp : s.phase = .busy (left + k + 1))
    (hk : KeepsDuty k s) :
    ∃ t, runWith p k s = .next t ∧ SameDecode { s with phase := .busy (left + 1) } t ∧ t.script = s.script.drop k := by
  induction k generalizing s with
  | zero => exact ⟨s, rfl, by rw [SameDecode, ← hp], rfl⟩
  | succ k ih =>
    obtain ⟨s', hstep, hsame, htail, -⟩ := stepWith_of_duty p hr hz hc hk.head
    rw [blockCycle_of_busy_add_two (left := left + k) (hsame.rst.trans hr) (hsame.resetSeen.trans hz)
      (hsame.phase.trans hp)] at hstep
    have hk' : KeepsDuty k s' := hk.tail hsame htail
    obtain ⟨t, hrun, hdecode, hdrop⟩ := ih (s := { s' with phase := .busy (left + k + 1) })
      (hsame.rst.trans hr) (hsame.resetSeen.trans hz) (hsame.code ▸ hc) rfl hk'
    refine ⟨t, by rw [runWith_succ, hstep, andThen_next, hrun], (hsame.withPhase _).trans hdecode, ?_⟩
    rw [hdrop, htail, List.drop_tail]

/-- While the host keeps its duty, a decode with `left + 1` steps left commits in the last of them. -/
theorem runWith_of_busy_commits (p : Params) {left : Nat} {s : State} (hr : s.pins.rst = false)
    (hz : s.resetSeen = true) (hc : s.code.toNat ≤ 4) (hp : s.phase = .busy (left + 1))
    (hk : KeepsDuty (left + 1) s) :
    ∃ t, runWith p (left + 1) s = .next (commit (portsVerdict p s) t) ∧
      SameDecode { s with phase := .busy 1 } t ∧ t.script = s.script.drop (left + 1) := by
  obtain ⟨u, hrun, hsame, hdrop⟩ := runWith_of_busy p 0 hr hz hc (by rw [hp, Nat.zero_add])
    (hk.of_le (Nat.le_succ left))
  have hk' : KeepsDuty 1 u := KeepsDuty.drop (s := { s with phase := .busy 1 }) hk hsame hdrop
  obtain ⟨t, hstep, hsame', htail, -⟩ := stepWith_of_duty p (hsame.rst.trans hr) (hsame.resetSeen.trans hz)
    (hsame.code ▸ hc) hk'.head
  have hall := hsame.trans hsame'
  refine ⟨t, ?_, hall, by rw [htail, hdrop, List.tail_drop]⟩
  rw [runWith_add, hrun, andThen_next, runWith_one, hstep, blockCycle_of_busy_le_one (hall.rst.trans hr)
    (hall.resetSeen.trans hz) hall.phase (Nat.le_refl 1), hall.portsVerdict_eq]
  rfl

section
variable (p : Params) {s : State} (hp : s.phase = .idle) (hr : s.pins.rst = false) (hz : s.resetSeen = true)
  (hc : s.code.toNat ≤ 4) (hstart : (afterHead s).pins.start = true)
include hp hr hz hc hstart

/-- The step of a START in IDLE is the START's cycle from a state with the same inputs. -/
theorem stepWith_of_start (hk : ∀ m, s.script.head? = some m → keepsDecode s.pins m = true) :
    ∃ t, stepWith p s = startCycle p t ∧ SameDecode s t ∧ t.script = s.script.tail := by
  obtain ⟨t, hstep, hsame, htail, hlevel⟩ := stepWith_of_duty p hr hz hc hk
  refine ⟨t, ?_, hsame, htail⟩
  rw [hstep, blockCycle_of_idle_start (hsame.rst.trans hr) (hsame.resetSeen.trans hz) (hsame.phase.trans hp)
    (hlevel.trans hstart)]

/-- The START's own step and `k` more leave the block BUSY while the latency has `left + 1` steps to go. -/
theorem runWith_of_start (left k : Nat) (hlatency : p.latency s.latencyIdx = left + k + 1)
    (hk : KeepsDuty (k + 1) s) :
    ∃ t, runWith p (k + 1) s = .next t ∧ SameDecode (started (left + 1) s) t ∧ t.script = s.script.drop (k + 1) := by
  obtain ⟨s', hstep, hsame, htail⟩ := stepWith_of_start p hp hr hz hc hstart hk.head
  have hk' : KeepsDuty k s' := hk.tail hsame htail
  obtain ⟨t, hrun, hdecode, hdrop⟩ := runWith_of_busy p left (k := k) (s := started (left + k + 1) s')
    (hsame.rst.trans hr) (hsame.resetSeen.trans hz) (hsame.code ▸ hc) rfl hk'
  refine ⟨t, ?_, (hsame.started _).trans hdecode, ?_⟩
  · rw [runWith_succ, hstep, startCycle_eq, hsame.latencyIdx, hlatency, if_neg (Nat.succ_ne_zero _), andThen_next, hrun]
  · rw [hdrop]
    exact (congrArg _ htail).trans (by rw [List.drop_tail])

/-- `LATENCY` steps after the START's own the block commits the outcome of `DecodeFrame` on the inputs. -/
theorem runWith_of_start_commits (hk : KeepsDuty (p.latency s.latencyIdx + 1) s) :
    ∃ left t, runWith p (p.latency s.latencyIdx + 1) s = .next (commit (portsVerdict p s) t) ∧
      SameDecode (started left s) t ∧ t.script = s.script.drop (p.latency s.latencyIdx + 1) := by
  obtain ⟨s', hstep, hsame, htail⟩ := stepWith_of_start p hp hr hz hc hstart hk.head
  rw [runWith_succ, hstep, startCycle_eq, hsame.latencyIdx, hsame.portsVerdict_eq]
  cases hlatency : p.latency s.latencyIdx with
  | zero => exact ⟨0, started 0 s', rfl, hsame.started 0, by rw [List.drop_one]; exact htail⟩
  | succ n =>
    rw [hlatency] at hk
    have hk' : KeepsDuty (n + 1) s' := hk.tail hsame htail
    obtain ⟨t, hrun, hdecode, hdrop⟩ := runWith_of_busy_commits p (s := started (n + 1) s')
      (hsame.rst.trans hr) (hsame.resetSeen.trans hz) (hsame.code ▸ hc) rfl hk'
    refine ⟨1, t, ?_, (hsame.started _).trans hdecode, ?_⟩
    · rw [if_neg (Nat.succ_ne_zero n), andThen_next, hrun, ← hsame.portsVerdict_eq]
      rfl
    · rw [hdrop]
      exact (congrArg _ htail).trans (by rw [List.drop_tail])

end

/-! ## From a START to its commit, the host waiting -/

/-- A host that makes no move, or waits, leaves everything to the block's cycle. -/
theorem stepWith_of_waiting (p : Params) {s : State} (hw : ∀ m, s.script.head? = some m → m = .wait) :
    stepWith p s = blockCycle p { s with script := s.script.tail } := by
  match hs : s.script with
  | [] => rw [stepWith_of_script_nil hs, List.tail_nil, ← hs]
  | m :: rest =>
    obtain rfl : m = .wait := hw m (by rw [hs]; rfl)
    simp only [stepWith, hs, List.tail_cons]

theorem commit_withLatencyIdx (v : Verdict) (i : Nat) (s : State) :
    { commit v s with latencyIdx := i } = commit v { s with latencyIdx := i } := by
  cases v <;> rfl

theorem commit_withPhase (v : Verdict) (phase : Phase) (s : State) : commit v { s with phase := phase } = commit v s := by
  cases v <;> rfl

/-- A decode with `left + 1` steps left commits in the last of them, and nothing but the script has changed before. -/
theorem runWith_of_busy_waiting (p : Params) {left : Nat} {s : State} (hr : s.pins.rst = false)
    (hz : s.resetSeen = true) (hp : s.phase = .busy (left + 1)) (hw : ∀ m ∈ s.script.take (left + 1), m = .wait) :
    runWith p (left + 1) s = .next (commit (portsVerdict p s) { s with script := s.script.drop (left + 1) }) := by
  induction left generalizing s with
  | zero =>
    rw [runWith_one, stepWith_of_waiting p (forall_head_of_forall_take hw), List.drop_one]
    exact blockCycle_of_busy_le_one hr hz hp (Nat.le_refl 1)
  | succ n ih =>
    have hstep : stepWith p s = .next { s with script := s.script.tail, phase := .busy (n + 1) } := by
      rw [stepWith_of_waiting p (forall_head_of_forall_take hw)]
      exact blockCycle_of_busy_add_two hr hz hp
    have hw' : ∀ m ∈ s.script.tail.take (n + 1), m = .wait := by
      rw [← List.drop_one]
      exact forall_take_drop (by rw [Nat.add_comm]; exact hw)
    rw [runWith_succ, hstep, andThen_next,
      ih (s := { s with script := s.script.tail, phase := .busy (n + 1) }) hr hz rfl hw', List.drop_tail]
    exact congrArg _
      (commit_withPhase (portsVerdict p s) (.busy (n + 1)) { s with script := s.script.drop (n + 1 + 1) })

/-- A START and the wait for its latency: the commit, and of the rest only the script and the count of STARTs change. -/
theorem runWith_of_startCycle_waiting (p : Params) {s : State} (hr : s.pins.rst = false) (hz : s.resetSeen = true)
    (hw : ∀ m ∈ s.script.take (p.latency s.latencyIdx), m = .wait) :
    andThen (startCycle p s) (runWith p (p.latency s.latencyIdx)) = .next (commit (portsVerdict p s)
      { s with latencyIdx := s.latencyIdx + 1, script := s.script.drop (p.latency s.latencyIdx) }) := by
  rw [startCycle_eq]
  cases hlatency : p.latency s.latencyIdx with
  | zero => rw [if_pos rfl, andThen_next, started, commit_takeStart]; rfl
  | succ n =>
    rw [hlatency] at hw
    rw [if_neg (Nat.succ_ne_zero n), andThen_next,
      runWith_of_busy_waiting p (s := started (n + 1) s) hr hz rfl hw]
    exact congrArg _ (commit_takeStart (portsVerdict p s) (n + 1)
      { s with latencyIdx := s.latencyIdx + 1, script := s.script.drop (n + 1) })

/-- A host that makes no move and holds START high: one decode from IDLE to IDLE. -/
theorem runWith_of_held_start (p : Params) {s : State} (hs : s.script = []) (hr : s.pins.rst = false)
    (hstart : s.pins.start = true) (hp : s.phase = .idle) (hz : s.resetSeen = true) :
    runWith p (p.latency s.latencyIdx + 1) s =
      .next (commit (portsVerdict p s) { s with latencyIdx := s.latencyIdx + 1 }) := by
  rw [runWith_succ, stepWith_of_script_nil hs, blockCycle_of_idle_start hr hz hp hstart,
    runWith_of_startCycle_waiting p hr hz (by rw [hs, List.take_nil]; nofun), hs, List.drop_nil, ← hs]

/-- The state such a decode ends in. -/
def afterOneDecode (p : Params) (s : State) : State :=
  commit (portsVerdict p s) { s with latencyIdx := s.latencyIdx + 1 }

section
variable (p : Params) {s : State} (hs : s.script = []) (hr : s.pins.rst = false) (hstart : s.pins.start = true)
  (hz : s.resetSeen = true)
include hs hr hstart hz

/-- From there the START, still high, is taken again. -/
theorem stepWith_of_held_start_again (hpos : 1 ≤ p.latency (s.latencyIdx + 1)) :
    stepWith p (afterOneDecode p s) = .next (started (p.latency (s.latencyIdx + 1)) (afterOneDecode p s)) := by
  have hidx : (afterOneDecode p s).latencyIdx = s.latencyIdx + 1 := commit_latencyIdx _ _
  rw [stepWith_of_script_nil (by simp [afterOneDecode, hs]),
    blockCycle_of_idle_start (by simp [afterOneDecode, hr]) (by simp [afterOneDecode, hz]) (by simp [afterOneDecode])
      (by simp [afterOneDecode, hstart]), startCycle_eq, hidx, if_neg (Nat.one_le_iff_ne_zero.mp hpos)]

/-- The second decode ends as the first did, but for the count of STARTs. -/
theorem runWith_of_held_start_again :
    runWith p (p.latency (s.latencyIdx + 1) + 1) (afterOneDecode p s) =
      .next (commit (portsVerdict p s) { s with latencyIdx := s.latencyIdx + 2 }) := by
  have hidx : (afterOneDecode p s).latencyIdx = s.latencyIdx + 1 := commit_latencyIdx _ _
  have hverdict : portsVerdict p (afterOneDecode p s) = portsVerdict p s := by simp [portsVerdict, afterOneDecode]
  have hrun := runWith_of_held_start p (s := afterOneDecode p s) (by simp [afterOneDecode, hs])
    (by simp [afterOneDecode, hr]) (by simp [afterOneDecode, hstart]) (by simp [afterOneDecode])
    (by simp [afterOneDecode, hz])
  rw [hidx, hverdict] at hrun
  rw [hrun, afterOneDecode, commit_withLatencyIdx, commit_commit]

end

/-! ## The two-step form (40_frame_decoder.md section 4) -/

/-- Driving the inputs of an IDLE block whose START is low does nothing else. -/
theorem stepWith_drive_of_idle {p : Params} {s : State} {n l : Nat} {f : Frame} {rest : List HostMove}
    (hs : s.script = .drive n l f :: rest) (hp : s.phase = .idle) (hr : s.pins.rst = false)
    (hstart : s.pins.start = false) :
    stepWith p s = .next (withInputs n l f { s with script := rest }) := by
  have hfree : decodeInProgress s = false := by simp [decodeInProgress, isBusy, hp]
  rw [stepWith_of_portMove hs rfl fun _ _ _ _ => hfree]
  exact blockCycle_of_idle_low hr hp hstart

/-- Raising START on an IDLE block, and waiting for its latency, ends in the commit. -/
theorem runWith_of_raised_start (p : Params) {s : State} {rest : List HostMove}
    (hs : s.script = HostMove.setStart true :: (List.replicate (p.latency s.latencyIdx) HostMove.wait ++ rest))
    (hp : s.phase = .idle) (hr : s.pins.rst = false) (hz : s.resetSeen = true) :
    runWith p (p.latency s.latencyIdx + 1) s = .next (commit (portsVerdict p s)
      (withStart true { s with latencyIdx := s.latencyIdx + 1, script := rest })) := by
  have hcycle : stepWith p s = startCycle p (withStart true { s with
      script := List.replicate (p.latency s.latencyIdx) HostMove.wait ++ rest }) := by
    rw [stepWith_of_portMove hs rfl nofun]
    exact blockCycle_of_idle_start hr hz hp rfl
  have hrun := runWith_of_startCycle_waiting p (s := withStart true { s with
    script := List.replicate (p.latency s.latencyIdx) HostMove.wait ++ rest }) hr hz (by simp)
  simp only [withStart_latencyIdx, withStart_script, List.drop_left', List.length_replicate] at hrun
  rw [runWith_succ, hcycle, hrun]
  rfl

/-- Lowering START on an IDLE block does nothing else. -/
theorem stepWith_lower_start_of_idle {p : Params} {s : State} {rest : List HostMove}
    (hs : s.script = .setStart false :: rest) (hp : s.phase = .idle) (hr : s.pins.rst = false) :
    stepWith p s = .next (withStart false { s with script := rest }) := by
  rw [stepWith_of_portMove hs rfl nofun]
  exact blockCycle_of_idle_low hr hp rfl

/-- A START raised on an IDLE block for its latency and lowered again: the commit, with START low. -/
theorem runWith_of_start_pulse (p : Params) {s : State}
    (hs : s.script = HostMove.setStart true ::
      (List.replicate (p.latency s.latencyIdx) HostMove.wait ++ [HostMove.setStart false]))
    (hp : s.phase = .idle) (hr : s.pins.rst = false) (hz : s.resetSeen = true) :
    runWith p (p.latency s.latencyIdx + 2) s = .next (commit (portsVerdict p s)
      (withStart false { s with latencyIdx := s.latencyIdx + 1, script := [] })) := by
  rw [runWith_add p (p.latency s.latencyIdx + 1) 1, runWith_of_raised_start p hs hp hr hz, andThen_next, runWith_one]
  refine (stepWith_lower_start_of_idle (commit_script _ _) (commit_phase _ _) (by simpa using hr)).trans ?_
  cases portsVerdict p s <;> rfl

/-- The two-step form from an IDLE block: the commit on the inputs driven, with START low. -/
theorem runWith_two_step_form (p : Params) {s : State} {n l : Nat} {f : Frame}
    (hs : s.script = [HostMove.drive n l f, .setStart true] ++ List.replicate (p.latency s.latencyIdx) HostMove.wait ++
      [HostMove.setStart false])
    (hp : s.phase = .idle) (hr : s.pins.rst = false) (hstart : s.pins.start = false) (hz : s.resetSeen = true) :
    runWith p (p.latency s.latencyIdx + 3) s =
      .next (commit (decodeFrameWith p.crc8Fn (saturate16 n) (saturate16 l) f)
        (withStart false (withInputs n l f { s with latencyIdx := s.latencyIdx + 1, script := [] }))) := by
  rw [runWith_succ, stepWith_drive_of_idle hs hp hr hstart, andThen_next]
  exact runWith_of_start_pulse p (s := withInputs n l f { s with
    script := HostMove.setStart true ::
      (List.replicate (p.latency s.latencyIdx) HostMove.wait ++ [HostMove.setStart false]) }) rfl hp hr hz

/-! ## The statements -/

/-- Settles O36: the step is a cycle with the same decode, which counts down or commits. -/
theorem everyBusyStepApproachesTheCommit : Obligations.EveryBusyStepApproachesTheCommit := by
  intro p s t left hp hz hr hreset hrst h
  have hbusy : decodeInProgress s = true := by simp [decodeInProgress, isBusy, hp, hz, hr]
  obtain ⟨s', hsame, hcycle⟩ := stepWith_of_decodeInProgress hbusy hr hreset hrst h
  have hp' : s'.phase = .busy left := hsame.phase.trans hp
  refine ⟨fun hleft => ?_, fun hleft => ?_⟩
  · obtain ⟨n, rfl⟩ := Nat.exists_eq_add_of_le' hleft
    rw [blockCycle_of_busy_add_two (hsame.rst.trans hr) (hsame.resetSeen.trans hz) hp'] at hcycle
    cases hcycle
    exact ⟨rfl, hsame.done, hsame.valid, hsame.code, hsame.recordOf⟩
  · rw [blockCycle_of_busy_le_one (hsame.rst.trans hr) (hsame.resetSeen.trans hz) hp' hleft] at hcycle
    cases hcycle
    exact ⟨commit_phase _ _, commit_done _ _, by rw [← portsVerdict, ← hsame.portsVerdict_eq, commit_commit]⟩

/-- Settles O37: the commit, and the state after each step of the latency. -/
theorem commitFollowsStartAfterLatency : Obligations.CommitFollowsStartAfterLatency := by
  intro p s hp hr hz hc hstart hk
  refine ⟨?_, fun k hk1 hkl => ?_⟩
  · obtain ⟨left, t, hrun, hsame, hdrop⟩ := runWith_of_start_commits p hp hr hz hc hstart hk
    exact ⟨_, hrun, commit_phase _ t, commit_done _ t, commit_commit _ _ t, by rw [commit_pins]; exact hsame.pins,
      by rw [commit_script, hdrop], by rw [commit_latencyIdx]; exact hsame.latencyIdx⟩
  · obtain ⟨n, rfl⟩ := Nat.exists_eq_add_of_le' hk1
    obtain ⟨left, hlatency⟩ := Nat.exists_eq_add_of_le' hkl
    obtain ⟨t, hrun, hsame, hdrop⟩ := runWith_of_start p hp hr hz hc hstart left n hlatency
      (KeepsDuty.of_le hk (by omega))
    have hphase : p.latency s.latencyIdx + 1 - (n + 1) = left + 1 := by omega
    exact ⟨t, hrun, by rw [hphase]; exact hsame.phase, hsame.done, hsame.valid, hsame.code, hsame.recordOf, hsame.pins,
      hdrop⟩

/-- Settles O38: the state a held START's decode ends in takes the next START at once. -/
theorem heldStartDecodesRepeatedly : Obligations.HeldStartDecodesRepeatedly := by
  rintro p s first second hs hr hstart hp hz rfl rfl
  have hdecode := runWith_of_held_start p hs hr hstart hp hz
  refine ⟨hdecode, fun hpos => ⟨started (p.latency (s.latencyIdx + 1)) (afterOneDecode p s), ?_, rfl, rfl, ?_⟩, ?_⟩
  · rw [runWith_add p (p.latency s.latencyIdx + 1) 1, hdecode, andThen_next, runWith_one]
    exact stepWith_of_held_start_again p hs hr hstart hz hpos
  · exact congrArg (· + 1) (commit_latencyIdx _ _)
  · rw [runWith_add, hdecode, andThen_next]
    exact runWith_of_held_start_again p hs hr hstart hz

/-- Settles O39: the two-step form and the transaction end in the same commit, with START low. -/
theorem twoStepFormEqualsAtomicDecode : Obligations.TwoStepFormEqualsAtomicDecode := by
  intro p s n l f hp hr hstart hz
  refine ⟨_, stepWith_decode_of_ready (s := { s with script := [.decode n l f] }) rfl
    (readyForDecode_of_idle hp hr) hz, ?_⟩
  rw [commit_withLatencyIdx, classVerdict_classifyWith_txWord]
  exact runWith_two_step_form p (s := { s with script := _ }) rfl hp hr hstart hz

/-- Settles O49: a quiet move leaves the ports low, and then the cycle of an IDLE block changes nothing. -/
theorem outputsAreStableUntilTheNextStart : Obligations.OutputsAreStableUntilTheNextStart := by
  intro p s t hp hr hstart hquiet h
  obtain ⟨hcycle, -⟩ := blockCycle_afterHead_of_stepWith h (fun hm => by simpa [quietMove] using hquiet _ hm)
    (fun n l f hm => by simpa [quietMove] using hquiet _ hm)
  obtain ⟨hr', hstart'⟩ := afterHead_quiet hr hstart hquiet
  have hsame := sameBlock_afterHead s
  have hidle : (afterHead s).phase = .idle := by rw [hsame]; exact hp
  obtain rfl := Host.Outcome.next.inj (hcycle.symm.trans
    (blockCycle_of_idle_low (s := { afterHead s with script := s.script.tail }) hr' hidle hstart'))
  exact ⟨(outputs_of_sameBlock hsame :), hidle, hr', hstart'⟩

end Sys2Proof.Machine
end

