-- ==== Sys2Proof/Proofs/Crc8Algebra.lean ====
section
/-! PROOFS. The algebra of the default CRC-8 (41_crc8_validator.md section 3, notes/assumptions/1): it is linear, its shift is
invertible, and what it leaves of an error does not depend on the frame; and the statements O51, O52, O53, O54, O55 and O56. -/

namespace Sys2Proof.Machine

/-! ## Linearity -/

theorem crcShift_eq (poly a : Byte) : crcShift poly a = (a <<< 1) ^^^ (if a.msb then poly else 0) := by
  cases h : a.msb <;> simp [crcShift, h]

theorem crcShift_xor (poly a b : Byte) : crcShift poly (a ^^^ b) = crcShift poly a ^^^ crcShift poly b := by
  have hfeedback : (if (a ^^^ b).msb then poly else 0) =
      (if a.msb then poly else 0) ^^^ (if b.msb then poly else 0) := by
    rw [BitVec.msb_xor]
    cases a.msb <;> cases b.msb <;> simp
  rw [crcShift_eq, crcShift_eq, crcShift_eq, hfeedback, BitVec.shiftLeft_xor_distrib]
  ac_rfl

theorem crcShifts_xor (poly : Byte) (n : Nat) (a b : Byte) :
    crcShifts poly n (a ^^^ b) = crcShifts poly n a ^^^ crcShifts poly n b := by
  induction n generalizing a b with
  | zero => rfl
  | succ n ih => rw [crcShifts, crcShift_xor, ih, crcShifts, crcShifts]

theorem crcShifts_zero (poly : Byte) (n : Nat) : crcShifts poly n 0 = 0 := by
  induction n with
  | zero => rfl
  | succ n ih =>
    have hzero : crcShift poly 0 = 0 := by simp [crcShift]
    rw [crcShifts, hzero, ih]

theorem crcShifts_add (poly : Byte) (m n : Nat) (a : Byte) :
    crcShifts poly (m + n) a = crcShifts poly n (crcShifts poly m a) := by
  induction m generalizing a with
  | zero => rw [Nat.zero_add, crcShifts]
  | succ m ih => rw [Nat.succ_add, crcShifts, ih, crcShifts]

theorem crcByte_xor (poly a b x y : Byte) :
    crcByte poly (a ^^^ b) (x ^^^ y) = crcByte poly a x ^^^ crcByte poly b y := by
  rw [crcByte, crcByte, crcByte, ← crcShifts_xor]
  congr 1
  ac_rfl

theorem foldl_crcByte_xor (poly : Byte) {m e : List Byte} (h : m.length = e.length) (a b : Byte) :
    (List.zipWith (· ^^^ ·) m e).foldl (crcByte poly) (a ^^^ b) =
      m.foldl (crcByte poly) a ^^^ e.foldl (crcByte poly) b := by
  induction m generalizing e a b with
  | nil =>
    obtain rfl : e = [] := List.eq_nil_of_length_eq_zero h.symm
    rfl
  | cons x m ih =>
    obtain ⟨y, e, rfl⟩ := List.exists_cons_of_length_eq_add_one h.symm
    rw [List.zipWith_cons_cons, List.foldl_cons, crcByte_xor, ih (Nat.succ.inj h), List.foldl_cons, List.foldl_cons]

/-- Over its whole message the CRC is the fold of its bytes. -/
theorem crc8_eq_foldl {m : List Byte} {n : Nat} (h : m.length = n) (poly init : Byte) :
    crc8 m n poly init = m.foldl (crcByte poly) init := by
  rw [crc8, List.take_of_length_le (Nat.le_of_eq h)]

theorem crc8_xor {m e : List Byte} {n : Nat} (hm : m.length = n) (he : e.length = n) (poly a b : Byte) :
    crc8 (List.zipWith (· ^^^ ·) m e) n poly (a ^^^ b) = crc8 m n poly a ^^^ crc8 e n poly b := by
  rw [crc8_eq_foldl hm, crc8_eq_foldl he, crc8_eq_foldl (by simp [hm, he]), foldl_crcByte_xor poly (hm.trans he.symm)]

/-! ## The shift of the block's polynomial is invertible -/

/-- A polynomial with a constant term shifts no remainder but 0 to 0: bit 0 of the result is the bit 7 that is lost. -/
theorem crcShift_eq_zero_iff {poly : Byte} (hpoly : poly.getLsbD 0 = true) (a : Byte) :
    crcShift poly a = 0 ↔ a = 0 := by
  refine ⟨fun h => ?_, fun h => by simp [h, crcShift]⟩
  cases hmsb : a.msb with
  | true =>
    have hbit : poly.getLsbD 0 = false := by simpa [crcShift, hmsb] using congrArg (BitVec.getLsbD · 0) h
    rw [hbit] at hpoly
    cases hpoly
  | false =>
    have hlt := BitVec.msb_eq_false_iff_two_mul_lt.mp hmsb
    have hshift := congrArg BitVec.toNat h
    simp only [crcShift, hmsb, Bool.false_eq_true, if_false, BitVec.toNat_shiftLeft, Nat.shiftLeft_eq] at hshift
    apply BitVec.eq_of_toNat_eq
    simp only [BitVec.ofNat_eq_ofNat, BitVec.toNat_ofNat] at hshift ⊢
    omega

theorem crcShifts_eq_zero_iff {poly : Byte} (hpoly : poly.getLsbD 0 = true) (n : Nat) (a : Byte) :
    crcShifts poly n a = 0 ↔ a = 0 := by
  induction n generalizing a with
  | zero => rfl
  | succ n ih => rw [crcShifts, ih, crcShift_eq_zero_iff hpoly]

theorem crcShifts_injective {poly : Byte} (hpoly : poly.getLsbD 0 = true) (n : Nat) :
    Function.Injective (crcShifts poly n) := by
  intro a b h
  refine BitVec.xor_eq_zero_iff.mp ((crcShifts_eq_zero_iff hpoly n (a ^^^ b)).mp ?_)
  rw [crcShifts_xor, h]
  exact BitVec.xor_self

/-- The block's polynomial has its constant term. -/
theorem cCrcPoly_constant_term : cCrcPoly.getLsbD 0 = true := by decide

/-! ## The zero residue -/

theorem crc8_concat (m : List Byte) (b poly init : Byte) :
    crc8 (m ++ [b]) (m.length + 1) poly init = crcByte poly (crc8 m m.length poly init) b := by
  rw [crc8_eq_foldl (by simp), crc8_eq_foldl rfl, List.foldl_append, List.foldl_cons, List.foldl_nil]

/-- The CRC over a message and a byte more is 0 exactly when that byte is the CRC of the message. -/
theorem crc8_concat_eq_zero_iff (m : List Byte) (b init : Byte) :
    crc8 (m ++ [b]) (m.length + 1) cCrcPoly init = 0 ↔ crc8 m m.length cCrcPoly init = b := by
  rw [crc8_concat, crcByte, crcShifts_eq_zero_iff cCrcPoly_constant_term]
  exact BitVec.xor_eq_zero_iff

/-- The same of a frame, whose last byte is the transmitted CRC. -/
theorem crc8_windowBytes_eq_zero_iff (frame : Frame) :
    crc8 (windowBytes frame) 10 cCrcPoly cCrcInit = 0 ↔ payloadCrc crc8 frame = byteAt frame 9 :=
  crc8_concat_eq_zero_iff (payload frame) (byteAt frame 9) cCrcInit

/-- A byte equal to the remainder cancels it. -/
theorem crcByte_self (poly a : Byte) : crcByte poly a a = 0 := by
  rw [crcByte, BitVec.xor_self]
  exact crcShifts_zero poly 8

/-! ## What the CRC leaves of an error -/

theorem byteAt_xor (a b : Frame) (i : Fin 10) : byteAt (a ^^^ b) i = byteAt a i ^^^ byteAt b i :=
  BitVec.extractLsb'_xor

theorem windowBytes_xor (a b : Frame) :
    windowBytes (a ^^^ b) = List.zipWith (· ^^^ ·) (windowBytes a) (windowBytes b) := by
  simp [windowBytes, byteAt_xor, List.zipWith_map]

/-- The CRC with seed 0 over all ten bytes of an error pattern. -/
def errorResidue (e : Frame) : Byte := crc8 (windowBytes e) 10 cCrcPoly 0

theorem errorResidue_xor (a b : Frame) : errorResidue (a ^^^ b) = errorResidue a ^^^ errorResidue b := by
  have h := crc8_xor (windowBytes_length a) (windowBytes_length b) cCrcPoly 0 0
  rwa [BitVec.xor_self, ← windowBytes_xor] at h

/-- The residue of a frame with an error is that of the frame XOR that of the error. -/
theorem crc8_windowBytes_xor (frame e : Frame) :
    crc8 (windowBytes (frame ^^^ e)) 10 cCrcPoly cCrcInit =
      crc8 (windowBytes frame) 10 cCrcPoly cCrcInit ^^^ errorResidue e := by
  have h := crc8_xor (windowBytes_length frame) (windowBytes_length e) cCrcPoly cCrcInit 0
  rwa [show cCrcInit ^^^ 0 = cCrcInit from BitVec.xor_zero, ← windowBytes_xor] at h

/-! ## A single bit -/

/-- Bit `k` of a frame is bit `k % 8` of the byte `k / 8` before the last. -/
theorem byteAt_twoPow {k : Nat} (hk : k < 80) (i : Fin 10) :
    byteAt (BitVec.twoPow 80 k) i = if i.val + k / 8 = 9 then BitVec.twoPow 8 (k % 8) else 0 := by
  have hi := i.isLt
  apply BitVec.eq_of_getLsbD_eq
  intro j hj
  rw [byteAt, BitVec.getLsbD_extractLsb', BitVec.getLsbD_twoPow]
  split_ifs with h
  · rw [BitVec.getLsbD_twoPow]
    have hbit : k = 72 - 8 * i.val + j ↔ k % 8 = j := by omega
    simp [hj, hk, hbit, Nat.mod_lt]
  · have hbit : k ≠ 72 - 8 * i.val + j := by omega
    simp [hbit]

theorem windowBytes_twoPow {k : Nat} (hk : k < 80) :
    windowBytes (BitVec.twoPow 80 k) =
      List.replicate (9 - k / 8) 0 ++ BitVec.twoPow 8 (k % 8) :: List.replicate (k / 8) 0 := by
  apply List.ext_getElem
  · simp
    omega
  · intro i hi _
    have hget : (windowBytes (BitVec.twoPow 80 k))[i] = if i + k / 8 = 9 then BitVec.twoPow 8 (k % 8) else 0 := by
      simp [windowBytes, byteAt_twoPow hk]
    rw [hget]
    rcases lt_trichotomy i (9 - k / 8) with hlt | heq | hgt
    · have hbyte : ¬ i + k / 8 = 9 := by omega
      simp [hbyte, hlt]
    · have hbyte : 9 - k / 8 + k / 8 = 9 := by omega
      simp [hbyte, heq]
    · have hbyte : ¬ i + k / 8 = 9 := by omega
      have hpos : i - (9 - k / 8) ≠ 0 := by omega
      simp [hbyte, hgt.not_gt, hpos, List.getElem_append, List.getElem_cons]

theorem crcByte_zero (poly a : Byte) : crcByte poly a 0 = crcShifts poly 8 a := by simp [crcByte]

theorem zero_crcByte (poly b : Byte) : crcByte poly 0 b = crcShifts poly 8 b := by simp [crcByte]

/-- A run of zero bytes is shifts alone. -/
theorem foldl_crcByte_replicate_zero (poly : Byte) (n : Nat) (a : Byte) :
    (List.replicate n 0).foldl (crcByte poly) a = crcShifts poly (8 * n) a := by
  induction n generalizing a with
  | zero => rfl
  | succ n ih =>
    rw [List.replicate_succ, List.foldl_cons, ih, crcByte_zero, ← crcShifts_add, Nat.mul_succ, Nat.add_comm]

/-- Within a byte no bit is lost: the shifts of 1 are the powers of two. -/
theorem crcShifts_one_of_lt : ∀ r < 8, crcShifts cCrcPoly r 1 = BitVec.twoPow 8 r := by decide

/-- The residue of bit `k` is `1` shifted once for each bit from it on, and the eight of the CRC. -/
theorem errorResidue_twoPow {k : Nat} (hk : k < 80) :
    errorResidue (BitVec.twoPow 80 k) = crcShifts cCrcPoly (k + 8) 1 := by
  have hbyte : crcByte cCrcPoly 0 (BitVec.twoPow 8 (k % 8)) = crcShifts cCrcPoly (k % 8 + 8) 1 := by
    rw [zero_crcByte, crcShifts_add, crcShifts_one_of_lt _ (Nat.mod_lt k (by decide))]
  have hcount : k % 8 + 8 + 8 * (k / 8) = k + 8 := by omega
  rw [errorResidue, crc8_eq_foldl (windowBytes_length _), windowBytes_twoPow hk, List.foldl_append,
    foldl_crcByte_replicate_zero, crcShifts_zero, List.foldl_cons, hbyte, foldl_crcByte_replicate_zero, ← crcShifts_add,
    hcount]

theorem errorResidue_twoPow_ne_zero {k : Nat} (hk : k < 80) : errorResidue (BitVec.twoPow 80 k) ≠ 0 := by
  rw [errorResidue_twoPow hk, Ne, crcShifts_eq_zero_iff cCrcPoly_constant_term]
  decide

/-! ## Two bits -/

/-- The order of the shift on 1 is 64 or more: within eight bytes no two bits have the same residue. -/
theorem crcShifts_one_ne_one : ∀ d < 64, d ≠ 0 → crcShifts cCrcPoly d 1 ≠ 1 := by decide

theorem errorResidue_twoPow_ne {j k : Nat} (hjk : j < k) (hk : k < 80) (hd : k - j < 64) :
    errorResidue (BitVec.twoPow 80 j) ≠ errorResidue (BitVec.twoPow 80 k) := by
  rw [errorResidue_twoPow (hjk.trans hk), errorResidue_twoPow hk]
  intro h
  have hsplit : k + 8 = (k - j) + (j + 8) := by omega
  have hlater : crcShifts cCrcPoly (k + 8) 1 = crcShifts cCrcPoly (j + 8) (crcShifts cCrcPoly (k - j) 1) := by
    rw [hsplit, crcShifts_add]
  rw [hlater] at h
  exact crcShifts_one_ne_one (k - j) hd (by omega) (crcShifts_injective cCrcPoly_constant_term _ h).symm

/-! ## Errors of an accepted frame -/

theorem decodeFrameWith_eq_accepted {crc : Crc8Fn} {frame : Frame} {rec : Record}
    (h : decodeFrameWith crc 1 80 frame = .accepted rec) :
    byteAt frame 0 = 0xFF ∧ payloadCrc crc frame = byteAt frame 9 := by
  rw [decodeFrameWith_eq] at h
  split_ifs at h with _ _ hpre hcrc
  exact ⟨not_not.mp hpre, not_not.mp hcrc⟩

/-- An error in byte 0 is caught by the preamble gate. -/
theorem decodeFrame_xor_of_byte_zero {frame e : Frame} {rec : Record}
    (h : decodeFrameWith crc8 1 80 frame = .accepted rec) (he : byteAt e 0 ≠ 0) :
    decodeFrameWith crc8 1 80 (frame ^^^ e) = .rejected .preambleMissing := by
  obtain ⟨hpre, -⟩ := decodeFrameWith_eq_accepted h
  have hpre' : byteAt (frame ^^^ e) 0 ≠ 0xFF := by
    rw [byteAt_xor, hpre]
    simpa using (BitVec.xor_right_inj (x := byteAt e 0) (y := 0) 0xFF).not.mpr he
  rw [decodeFrameWith_eq, if_neg (not_not.mpr rfl), if_neg (not_not.mpr rfl), if_pos hpre']

/-- An error past byte 0 that leaves a residue is caught by the checksum gate. -/
theorem decodeFrame_xor_of_residue {frame e : Frame} {rec : Record}
    (h : decodeFrameWith crc8 1 80 frame = .accepted rec) (he : byteAt e 0 = 0) (hres : errorResidue e ≠ 0) :
    decodeFrameWith crc8 1 80 (frame ^^^ e) = .rejected .checksumMismatch := by
  obtain ⟨hpre, hcrc⟩ := decodeFrameWith_eq_accepted h
  have hpre' : byteAt (frame ^^^ e) 0 = 0xFF := by rw [byteAt_xor, hpre, he]; rfl
  have hcrc' : payloadCrc crc8 (frame ^^^ e) ≠ byteAt (frame ^^^ e) 9 := by
    rw [Ne, ← crc8_windowBytes_eq_zero_iff, crc8_windowBytes_xor, (crc8_windowBytes_eq_zero_iff frame).mpr hcrc]
    simpa using hres
  rw [decodeFrameWith_of_structural_gates rfl rfl hpre', if_pos hcrc']

/-- Byte 0 holds the bits from 72 on, and no others. -/
theorem byteAt_zero_twoPow {k : Nat} (hk : k < 72) : byteAt (BitVec.twoPow 80 k) 0 = 0 := by
  have hbyte : ¬ (0 : Fin 10).val + k / 8 = 9 := by simp only [Fin.val_zero]; omega
  rw [byteAt_twoPow (hk.trans (by decide)), if_neg hbyte]

theorem byteAt_zero_twoPow_ne_zero {k : Nat} (hk : k < 80) (hk' : 72 ≤ k) : byteAt (BitVec.twoPow 80 k) 0 ≠ 0 := by
  have hbyte : (0 : Fin 10).val + k / 8 = 9 := by simp only [Fin.val_zero]; omega
  have hpow : ∀ r < 8, BitVec.twoPow 8 r ≠ 0 := by decide
  rw [byteAt_twoPow hk, if_pos hbyte]
  exact hpow _ (Nat.mod_lt k (by decide))

/-! ## The statements -/

/-- Settles O51: the vectors are evaluated. -/
theorem defaultCrcCheckValues : Obligations.DefaultCrcCheckValues := by
  refine ⟨?_, fun _ _ => rfl, ?_⟩ <;> decide +kernel

/-- Settles O52: a byte more is a remainder XOR that byte, shifted, and the shift loses nothing. -/
theorem zeroResidueExactlyWhenTheCrcMatches : Obligations.ZeroResidueExactlyWhenTheCrcMatches :=
  ⟨crc8_concat_eq_zero_iff, crc8_windowBytes_eq_zero_iff⟩

/-- Settles O53: the preamble is the seed, so the first byte leaves 0. -/
theorem preambleAbsorbsTheSeed : Obligations.PreambleAbsorbsTheSeed := by
  intro frame hpre
  rw [payloadCrc, crc8_eq_foldl (n := 9) rfl, List.foldl_cons, hpre, crcByte_self, crc8_eq_foldl (n := 8) rfl]

/-- Settles O54: the seed of the XOR is the seed XOR 0. -/
theorem defaultCrcIsAffine : Obligations.DefaultCrcIsAffine := by
  intro m e n poly init hm he
  rw [← crc8_xor hm he, show init ^^^ 0 = init from BitVec.xor_zero]

/-- Settles O55: a bit of byte 0 breaks the preamble, and any other leaves a residue. -/
theorem singleBitErrorsAreRejected : Obligations.SingleBitErrorsAreRejected := by
  intro frame rec h k hk
  split_ifs with hbyte
  · exact decodeFrame_xor_of_byte_zero h (byteAt_zero_twoPow_ne_zero hk hbyte)
  · exact decodeFrame_xor_of_residue h (byteAt_zero_twoPow (by omega)) (errorResidue_twoPow_ne_zero hk)

/-- Settles O56: two bits of bytes 1..8 leave different residues. -/
theorem doubleBitErrorsInThePayloadAreRejected : Obligations.DoubleBitErrorsInThePayloadAreRejected := by
  intro frame rec h j k hj hjk hk
  have hpre : byteAt (BitVec.twoPow 80 j ^^^ BitVec.twoPow 80 k) 0 = 0 := by
    rw [byteAt_xor, byteAt_zero_twoPow (hjk.trans hk), byteAt_zero_twoPow hk]
    rfl
  have hres : errorResidue (BitVec.twoPow 80 j ^^^ BitVec.twoPow 80 k) ≠ 0 := by
    rw [errorResidue_xor]
    exact fun hzero => errorResidue_twoPow_ne hjk (by omega) (by omega) (BitVec.xor_eq_zero_iff.mp hzero)
  rw [BitVec.xor_assoc]
  exact decodeFrame_xor_of_residue h hpre hres

end Sys2Proof.Machine
end
